-- ==== Sys2Proof/Word.lean ====
section
/-! DEFINITION. The widths of the machine: bytes, 64-bit words, register numbers and interrupt numbers. -/

namespace Sys2Proof

/-- One byte of memory (20_memory.md R40). -/
abbrev Byte := BitVec 8

/-- A register value, an address, the pc, an instruction word: a 64-bit pattern (00_scope.md R5, R8). -/
abbrev Word := BitVec 64

/-- A register number, `r00` to `r31`; every value is valid (30_encoding.md R66). -/
abbrev Reg := Fin 32

/-- The immediate field of an S type word, not yet widened (30_encoding.md R62). -/
abbrev ImmS := BitVec 46

/-- The immediate field of an L type word, not yet widened (30_encoding.md R63). -/
abbrev ImmL := BitVec 51

/-- An interrupt number: a 51-bit two's complement value, -1 being all ones (45_pcall.md R161). -/
abbrev InterruptNumber := BitVec 51

end Sys2Proof
end

