-- ==== Sys2Proof/Config.lean ====
section
/-! DEFINITION. The implementation parameters of 00_scope.md R6 and the numbers of the default interrupts. No value is left
free in this model: every instruction of the table has a stated result, so there is no opaque constant here. -/

namespace Sys2Proof

/-- `BYTE_ORDER`: the order of the bytes of a multi-byte cell, data and instruction fetch alike (20_memory.md R43). -/
inductive ByteOrder where
  | little
  | big
  deriving DecidableEq, Repr

/-- `IMM_EXT`: how an immediate field becomes a 64-bit value (30_encoding.md R65). -/
inductive ImmExt where
  | sign
  | zero
  deriving DecidableEq, Repr

/-- `IV_MODE`: the result of the interrupt vector check (45_pcall.md R164). -/
inductive IvMode where
  /-- 0: "no interrupts are possible". -/
  | impossible
  /-- 1: "interrupts are possible, but only in the address specified by `r29`". -/
  | fixedAddress
  /-- 2: "interrupts are possible anywhere defined by the program". -/
  | anywhere
  deriving DecidableEq, Repr

/-- `CNT_READING`, `BRANCH_READING`: which of two disagreeing texts of the source a model takes (90_conflicts.md C3, C5 to C7). -/
inductive Reading where
  | prose
  | pseudocode
  deriving DecidableEq, Repr

/-- `PCALL_OPCODE`: the "opcode and format" a platform may give the `pcall` instruction (00_scope.md R6, 45_pcall.md R175).
The spec assigns none and guesses no format, so the owner says where the interrupt number lies: bits
`numberLo + numberWidth - 1` down to `numberLo` of the word (DESIGN CHOICE, log 16). -/
structure PcallEncoding where
  opcode : BitVec 8
  numberLo : Nat
  numberWidth : Nat
  deriving DecidableEq, Repr

/-- The default interrupts the source lists by name (60_exceptions.md R180). -/
inductive DefaultInterrupt where
  | processorInterface
  | divisionByZero
  | generalFault
  | doubleFault
  | tripleFault
  | invalidInstruction
  | pageFault
  | invalidIO
  deriving DecidableEq, Repr

/-- The number the source gives each default interrupt (60_exceptions.md R180). -/
def DefaultInterrupt.number : DefaultInterrupt → InterruptNumber
  | .processorInterface => -1
  | .divisionByZero => 0
  | .generalFault => 1
  | .doubleFault => 2
  | .tripleFault => 3
  | .invalidInstruction => 4
  | .pageFault => 5
  | .invalidIO => 6

/-- The named parameters of 00_scope.md R6: read-only configuration, which no instruction changes (10_state.md R32). The fixed
ones (XLEN 64, NREGS 32, ILEN 64) are the types of `Sys2Proof.Word`. -/
structure Config where
  /-- `MEMSIZE`: the number of bytes of memory (20_memory.md R40); 0 < MEMSIZE <= 2^64. -/
  memSize : Nat
  byteOrder : ByteOrder
  /-- `ALIGN_REQUIRED`: with `true` an access that is not naturally aligned is refused (20_memory.md R46). -/
  alignRequired : Bool
  immExt : ImmExt
  pcallEncoding : Option PcallEncoding
  /-- `PCALL_DIVZERO` (90_conflicts.md C1). -/
  pcallDivZero : InterruptNumber
  /-- `PCALL_MEMRANGE` (90_conflicts.md C2). -/
  pcallMemRange : InterruptNumber
  /-- `PCALL_INVALID` (60_exceptions.md R185). -/
  pcallInvalid : InterruptNumber
  ivMode : IvMode
  /-- `IV_COUNT`: "the amount of interrupts the processor is able to handle" (45_pcall.md R164). -/
  ivCount : Word
  /-- `IV_R29`: an opaque value, address or bit flags (90_conflicts.md C10). -/
  ivR29 : Word
  /-- `PAGE_LEVELS`: 0, or at least 2 (45_pcall.md R166). -/
  pageLevels : Word
  pageSize : Word
  /-- `MODEL_INFO`: whether the processor can tell more about itself (45_pcall.md R168). -/
  modelInfo : Bool
  /-- `ENTRY_PC`: the pc when execution starts (10_state.md R33). -/
  entryPc : Word
  /-- `HALT_PC`: the pc at which a run is over (70_reset_and_hazards.md R203). -/
  haltPc : Word
  cntReading : Reading
  branchReading : Reading
  deriving DecidableEq, Repr

/-- The parameters of `State.reset`: the default of 00_scope.md R6 where it gives one. For the parameters it leaves OPEN, DESIGN
CHOICE: `memSize` 2^64 (log 2), `entryPc` 0 (log 3), `haltPc` 2^64 - 1 (log 4), `ivCount`, `ivR29`, `pageSize` 0 (log 26). -/
def Config.standard : Config where
  memSize := 2 ^ 64
  byteOrder := .little
  alignRequired := false
  immExt := .sign
  pcallEncoding := none
  pcallDivZero := DefaultInterrupt.divisionByZero.number
  pcallMemRange := 4
  pcallInvalid := DefaultInterrupt.invalidInstruction.number
  ivMode := .impossible
  ivCount := 0
  ivR29 := 0
  pageLevels := 0
  pageSize := 0
  modelInfo := false
  entryPc := 0
  haltPc := 0xFFFFFFFFFFFFFFFF
  cntReading := .prose
  branchReading := .prose

end Sys2Proof
end

