-- ==== Sys2Proof/Machine/Alu.lean ====
section
/-! DEFINITION. The results of the bitwise and arithmetic instructions, as functions of 64-bit operands. -/

namespace Sys2Proof.Machine

/-- The number of 1 bits (00_scope.md R9). -/
def popcount (v : Word) : Nat := (List.range 64).countP fun i => v.getLsbD i

/-- The low `n` bits set: `2^n - 1`. -/
def lowMask (n : Nat) : Word := BitVec.ofNat 64 (2 ^ n - 1)

/-- `cnt` (40_group0_bitwise.md R88), in the reading `CNT_READING` names: the prose excludes the highest `n` bits, the pseudocode keeps the
lowest `n`; both clear at 64 and above. -/
def countBits (reading : Reading) (v n : Word) : Word :=
  if 64 ≤ n.toNat then 0
  else
    match reading with
    | .prose => BitVec.ofNat 64 (popcount (v &&& lowMask (64 - n.toNat)))
    | .pseudocode => BitVec.ofNat 64 (popcount (v &&& lowMask n.toNat))

/-- The logical left shift (40_group0_bitwise.md R89, R90): the whole amount counts, and 64 or more clears. -/
def shiftLeft (v n : Word) : Word := if 64 ≤ n.toNat then 0 else v <<< n.toNat

/-- The logical right shift (40_group0_bitwise.md R89, R92). -/
def shiftRight (v n : Word) : Word := if 64 ≤ n.toNat then 0 else v >>> n.toNat

/-- The arithmetical left shift: multiplication by 2^n, the same bits as the logical one (40_group0_bitwise.md R94; log 23). -/
def shiftLeftArith (v n : Word) : Word := if 64 ≤ n.toNat then 0 else v <<< n.toNat

/-- The arithmetical right shift: sign fill below 64, and 0 at 64 and above even for a negative operand (40_group0_bitwise.md R96). -/
def shiftRightArith (v n : Word) : Word := if 64 ≤ n.toNat then 0 else v.sshiftRight n.toNat

/-- The low 64 bits of the unsigned product (41_group1_arithmetic.md R105). -/
def mulUnsigned (a b : Word) : Word := BitVec.ofNat 64 (a.toNat * b.toNat)

/-- The low 64 bits of the signed product (41_group1_arithmetic.md R107). -/
def mulSigned (a b : Word) : Word := BitVec.ofInt 64 (a.toInt * b.toInt)

/-- The floor of the unsigned quotient, for a divisor that is not 0 (41_group1_arithmetic.md R111). -/
def divUnsigned (a b : Word) : Word := BitVec.ofNat 64 (a.toNat / b.toNat)

/-- The low 64 bits of the signed quotient, rounded toward zero, for a divisor that is not 0 (41_group1_arithmetic.md R112). -/
def divSigned (a b : Word) : Word := BitVec.ofInt 64 (a.toInt.tdiv b.toInt)

end Sys2Proof.Machine
end

