-- ==== Sys2Proof/Syntax.lean ====
section
/-! DEFINITION. The instructions: one constructor per row of spec/opcode_table.json, in the table's order (30_encoding.md R68). -/

namespace Sys2Proof

/-- The 46 instructions. Operands are named by their FIELD (00_scope.md R11); roles that a field's name does not suggest are in the
meaning. Immediates are the raw fields: widening them is 30_encoding.md R65, done where they are used. A field that an instruction
ignores (30_encoding.md R67) is no operand. -/
inductive Instr where
  /-- 0x00, R type, R81. -/
  | andr (rd r1 r2 : Reg)
  /-- 0x01, S type, R82. -/
  | andi (rd r1 : Reg) (imm : ImmS)
  /-- 0x02, R type, R83. -/
  | xorr (rd r1 r2 : Reg)
  /-- 0x03, S type, R84. -/
  | xori (rd r1 : Reg) (imm : ImmS)
  /-- 0x04, R type, R85. -/
  | orr (rd r1 r2 : Reg)
  /-- 0x05, S type, R86. -/
  | ori (rd r1 : Reg) (imm : ImmS)
  /-- 0x06, R type, R87; the `r2` field is ignored. -/
  | not (rd r1 : Reg)
  /-- 0x07, S type, R88. -/
  | cnt (rd r1 : Reg) (imm : ImmS)
  /-- 0x08, R type, R90. -/
  | llsr (rd r1 r2 : Reg)
  /-- 0x09, S type, R91. -/
  | llsi (rd r1 : Reg) (imm : ImmS)
  /-- 0x0A, R type, R92. -/
  | lrsr (rd r1 r2 : Reg)
  /-- 0x0B, S type, R93. -/
  | lrsi (rd r1 : Reg) (imm : ImmS)
  /-- 0x0C, R type, R94. -/
  | alsr (rd r1 r2 : Reg)
  /-- 0x0D, S type, R95. -/
  | alsi (rd r1 : Reg) (imm : ImmS)
  /-- 0x0E, R type, R96. -/
  | arsr (rd r1 r2 : Reg)
  /-- 0x0F, S type, R97. -/
  | arsi (rd r1 : Reg) (imm : ImmS)
  /-- 0x10, R type, R101. -/
  | addr (rd r1 r2 : Reg)
  /-- 0x11, S type, R102. -/
  | addi (rd r1 : Reg) (imm : ImmS)
  /-- 0x12, R type, R103. -/
  | subr (rd r1 r2 : Reg)
  /-- 0x13, S type, R104. -/
  | subi (rd r1 : Reg) (imm : ImmS)
  /-- 0x14, R type, R105. -/
  | umulr (rd r1 r2 : Reg)
  /-- 0x15, S type, R106. -/
  | umuli (rd r1 : Reg) (imm : ImmS)
  /-- 0x16, R type, R107. -/
  | smulr (rd r1 r2 : Reg)
  /-- 0x17, S type, R108. -/
  | smuli (rd r1 : Reg) (imm : ImmS)
  /-- 0x18, R type, R113. -/
  | udivr (rd r1 r2 : Reg)
  /-- 0x19, S type, R114. -/
  | udivi (rd r1 : Reg) (imm : ImmS)
  /-- 0x1A, R type, R115. -/
  | sdivr (rd r1 r2 : Reg)
  /-- 0x1B, S type, R116. -/
  | sdivi (rd r1 : Reg) (imm : ImmS)
  /-- 0x1C, R type, R122. -/
  | call (rd r1 r2 : Reg)
  /-- 0x1D, S type, R123. -/
  | push (rd r1 : Reg) (imm : ImmS)
  /-- 0x1E, R type, R124; the `rd` field is ignored. -/
  | retn (r1 r2 : Reg)
  /-- 0x1F, S type, R125; the immediate is ignored. -/
  | pull (rd r1 : Reg)
  /-- 0x20, S type, R131. -/
  | ldb (rd r1 : Reg) (imm : ImmS)
  /-- 0x21, S type, R132. -/
  | ldh (rd r1 : Reg) (imm : ImmS)
  /-- 0x22, S type, R133. -/
  | ldw (rd r1 : Reg) (imm : ImmS)
  /-- 0x23, S type, R134. -/
  | ldd (rd r1 : Reg) (imm : ImmS)
  /-- 0x24, S type, R136. -/
  | stb (rd r1 : Reg) (imm : ImmS)
  /-- 0x25, S type, R137. -/
  | sth (rd r1 : Reg) (imm : ImmS)
  /-- 0x26, S type, R138. -/
  | stw (rd r1 : Reg) (imm : ImmS)
  /-- 0x27, S type, R139. -/
  | std (rd r1 : Reg) (imm : ImmS)
  /-- 0x28, L type, R146; `r1` is the link register (90_conflicts.md C9). -/
  | jal (r1 : Reg) (imm : ImmL)
  /-- 0x29, S type, R147. -/
  | jalr (rd r1 : Reg) (imm : ImmS)
  /-- 0x2A, S type, R148. -/
  | je (rd r1 : Reg) (imm : ImmS)
  /-- 0x2B, S type, R149. -/
  | jne (rd r1 : Reg) (imm : ImmS)
  /-- 0x2C, S type, R150. -/
  | jgu (rd r1 : Reg) (imm : ImmS)
  /-- 0x2D, S type, R151. -/
  | jleu (rd r1 : Reg) (imm : ImmS)
  deriving DecidableEq, Repr

end Sys2Proof
end

