-- ==== Sys2Proof/WellFormed.lean ====
section
/-! DEFINITION. What the types do not already rule out. Every instruction is well formed as it stands: each register number and each
immediate field is valid (30_encoding.md R66, R71) and the types of `Instr` hold exactly those. The checks are on raw operands
offered for an instruction, and on the parameters. -/

namespace Sys2Proof

/-- A raw register number names one of `r00` to `r31` (30_encoding.md R66). -/
def wfRegister (n : Nat) : Bool := n < 32

/-- A raw signed immediate fits the S type field (30_encoding.md R65: -2^45 .. 2^45 - 1). -/
def wfImmS (k : Int) : Bool := -2 ^ 45 ≤ k && k < 2 ^ 45

/-- A raw signed immediate fits the L type field (30_encoding.md R65: -2^50 .. 2^50 - 1). -/
def wfImmL (k : Int) : Bool := -2 ^ 50 ≤ k && k < 2 ^ 50

/-- The register a well-formed number names. -/
def mkRegister (n : Nat) : Option Reg := if h : n < 32 then some ⟨n, h⟩ else none

/-- The S type field of a well-formed signed immediate. -/
def mkImmS (k : Int) : Option ImmS := if wfImmS k then some (BitVec.ofInt 46 k) else none

/-- The L type field of a well-formed signed immediate. -/
def mkImmL (k : Int) : Option ImmL := if wfImmL k then some (BitVec.ofInt 51 k) else none

/-- An owner's encoding of `pcall` takes no opcode of the table, and its number lies above the opcode and inside the word, at
most 51 bits wide (45_pcall.md R161, R175). -/
def PcallEncoding.wellFormed (e : PcallEncoding) : Bool :=
  0x2D < e.opcode.toNat && 8 ≤ e.numberLo && 1 ≤ e.numberWidth && e.numberWidth ≤ 51 && e.numberLo + e.numberWidth ≤ 64

/-- The ranges 00_scope.md R6 states for the parameters: 0 < MEMSIZE <= 2^64, and PAGE_LEVELS "0 or >= 2". -/
def Config.wellFormed (c : Config) : Bool :=
  0 < c.memSize && c.memSize ≤ 2 ^ 64 && c.pageLevels != 1 &&
    (match c.pcallEncoding with | none => true | some e => e.wellFormed)

end Sys2Proof
end

