-- ==== Sys2Proof/Decode.lean ====
section
/-! DEFINITION. From bytes to instructions and back: the order of bytes in a cell (20_memory.md R43), the fields of a word
(30_encoding.md R61 to R63), the decoder (R64, R68, R70) and the encoder (R76). -/

namespace Sys2Proof

/-! ### Byte order -/

/-- The value of a run of bytes, the first being the least significant. -/
def joinLittle : List Byte → Nat
  | [] => 0
  | b :: bs => b.toNat + 256 * joinLittle bs

/-- The `n` low bytes of a word, the least significant first. -/
def splitLittle : Nat → Word → List Byte
  | 0, _ => []
  | n + 1, v => v.setWidth 8 :: splitLittle n (v >>> 8)

/-- The value of the cell whose bytes, from the lowest address up, are `bs` (20_memory.md R43). -/
def joinBytes (order : ByteOrder) (bs : List Byte) : Word :=
  match order with
  | .little => BitVec.ofNat 64 (joinLittle bs)
  | .big => BitVec.ofNat 64 (joinLittle bs.reverse)

/-- The bytes, from the lowest address up, of the `n`-byte cell that holds the low `8 n` bits of `v` (20_memory.md R43, R45). -/
def splitBytes (order : ByteOrder) (n : Nat) (v : Word) : List Byte :=
  match order with
  | .little => splitLittle n v
  | .big => (splitLittle n v).reverse

/-! ### Fields of a word -/

/-- The register number in the 5 bits from `lo` up (30_encoding.md R66). -/
def regField (w : Word) (lo : Nat) : Reg := ⟨(w.extractLsb' lo 5).toNat, (w.extractLsb' lo 5).isLt⟩

/-- `op = W[7:0]` (30_encoding.md R64). -/
def opcodeField (w : Word) : BitVec 8 := w.extractLsb' 0 8

/-- `W[12:8]`, in every format (30_encoding.md R64). -/
def fieldR1 (w : Word) : Reg := regField w 8

/-- `W[17:13]` of the R type (30_encoding.md R61). -/
def fieldR2 (w : Word) : Reg := regField w 13

/-- `W[22:18]`, the destination field of the R type (30_encoding.md R61). -/
def fieldRdR (w : Word) : Reg := regField w 18

/-- `W[17:13]`, the destination field of the S type (30_encoding.md R62). -/
def fieldRdS (w : Word) : Reg := regField w 13

/-- `W[63:18]` (30_encoding.md R62). -/
def fieldImmS (w : Word) : ImmS := w.extractLsb' 18 46

/-- `W[63:13]` (30_encoding.md R63). -/
def fieldImmL (w : Word) : ImmL := w.extractLsb' 13 51

/-! ### The decoder -/

/-- Why bytes are no instruction of the table. -/
inductive DecodeError where
  /-- The opcode is one of 0x2E to 0xFF (30_encoding.md R70). -/
  | undefinedOpcode (op : BitVec 8)
  /-- Fewer than the 8 bytes of an instruction were given (30_encoding.md R60). -/
  | tooShort (available : Nat)
  deriving DecidableEq, Repr

/-- The instruction a 64-bit word is. The opcode alone selects it (30_encoding.md R64, R68); bits and fields an instruction does
not use are not looked at (R67); every other opcode is rejected (R70). -/
def decodeWord (w : Word) : Except DecodeError Instr :=
  match (opcodeField w).toNat with
  | 0x00 => .ok (.andr (fieldRdR w) (fieldR1 w) (fieldR2 w))
  | 0x01 => .ok (.andi (fieldRdS w) (fieldR1 w) (fieldImmS w))
  | 0x02 => .ok (.xorr (fieldRdR w) (fieldR1 w) (fieldR2 w))
  | 0x03 => .ok (.xori (fieldRdS w) (fieldR1 w) (fieldImmS w))
  | 0x04 => .ok (.orr (fieldRdR w) (fieldR1 w) (fieldR2 w))
  | 0x05 => .ok (.ori (fieldRdS w) (fieldR1 w) (fieldImmS w))
  | 0x06 => .ok (.not (fieldRdR w) (fieldR1 w))
  | 0x07 => .ok (.cnt (fieldRdS w) (fieldR1 w) (fieldImmS w))
  | 0x08 => .ok (.llsr (fieldRdR w) (fieldR1 w) (fieldR2 w))
  | 0x09 => .ok (.llsi (fieldRdS w) (fieldR1 w) (fieldImmS w))
  | 0x0A => .ok (.lrsr (fieldRdR w) (fieldR1 w) (fieldR2 w))
  | 0x0B => .ok (.lrsi (fieldRdS w) (fieldR1 w) (fieldImmS w))
  | 0x0C => .ok (.alsr (fieldRdR w) (fieldR1 w) (fieldR2 w))
  | 0x0D => .ok (.alsi (fieldRdS w) (fieldR1 w) (fieldImmS w))
  | 0x0E => .ok (.arsr (fieldRdR w) (fieldR1 w) (fieldR2 w))
  | 0x0F => .ok (.arsi (fieldRdS w) (fieldR1 w) (fieldImmS w))
  | 0x10 => .ok (.addr (fieldRdR w) (fieldR1 w) (fieldR2 w))
  | 0x11 => .ok (.addi (fieldRdS w) (fieldR1 w) (fieldImmS w))
  | 0x12 => .ok (.subr (fieldRdR w) (fieldR1 w) (fieldR2 w))
  | 0x13 => .ok (.subi (fieldRdS w) (fieldR1 w) (fieldImmS w))
  | 0x14 => .ok (.umulr (fieldRdR w) (fieldR1 w) (fieldR2 w))
  | 0x15 => .ok (.umuli (fieldRdS w) (fieldR1 w) (fieldImmS w))
  | 0x16 => .ok (.smulr (fieldRdR w) (fieldR1 w) (fieldR2 w))
  | 0x17 => .ok (.smuli (fieldRdS w) (fieldR1 w) (fieldImmS w))
  | 0x18 => .ok (.udivr (fieldRdR w) (fieldR1 w) (fieldR2 w))
  | 0x19 => .ok (.udivi (fieldRdS w) (fieldR1 w) (fieldImmS w))
  | 0x1A => .ok (.sdivr (fieldRdR w) (fieldR1 w) (fieldR2 w))
  | 0x1B => .ok (.sdivi (fieldRdS w) (fieldR1 w) (fieldImmS w))
  | 0x1C => .ok (.call (fieldRdR w) (fieldR1 w) (fieldR2 w))
  | 0x1D => .ok (.push (fieldRdS w) (fieldR1 w) (fieldImmS w))
  | 0x1E => .ok (.retn (fieldR1 w) (fieldR2 w))
  | 0x1F => .ok (.pull (fieldRdS w) (fieldR1 w))
  | 0x20 => .ok (.ldb (fieldRdS w) (fieldR1 w) (fieldImmS w))
  | 0x21 => .ok (.ldh (fieldRdS w) (fieldR1 w) (fieldImmS w))
  | 0x22 => .ok (.ldw (fieldRdS w) (fieldR1 w) (fieldImmS w))
  | 0x23 => .ok (.ldd (fieldRdS w) (fieldR1 w) (fieldImmS w))
  | 0x24 => .ok (.stb (fieldRdS w) (fieldR1 w) (fieldImmS w))
  | 0x25 => .ok (.sth (fieldRdS w) (fieldR1 w) (fieldImmS w))
  | 0x26 => .ok (.stw (fieldRdS w) (fieldR1 w) (fieldImmS w))
  | 0x27 => .ok (.std (fieldRdS w) (fieldR1 w) (fieldImmS w))
  | 0x28 => .ok (.jal (fieldR1 w) (fieldImmL w))
  | 0x29 => .ok (.jalr (fieldRdS w) (fieldR1 w) (fieldImmS w))
  | 0x2A => .ok (.je (fieldRdS w) (fieldR1 w) (fieldImmS w))
  | 0x2B => .ok (.jne (fieldRdS w) (fieldR1 w) (fieldImmS w))
  | 0x2C => .ok (.jgu (fieldRdS w) (fieldR1 w) (fieldImmS w))
  | 0x2D => .ok (.jleu (fieldRdS w) (fieldR1 w) (fieldImmS w))
  | _ => .error (.undefinedOpcode (opcodeField w))

/-- The instruction at the head of a run of bytes, and the bytes after it (30_encoding.md R60: one length, 8 bytes). -/
def decodeBytes (order : ByteOrder) (bs : List Byte) : Except DecodeError (Instr × List Byte) :=
  if bs.length < 8 then .error (.tooShort bs.length)
  else
    match decodeWord (joinBytes order (bs.take 8)) with
    | .ok i => .ok (i, bs.drop 8)
    | .error e => .error e

/-- The instruction this decoder reads from a table word: the 8 bytes of `w` (its low `nbits` bits, every bit above them 0), least
significant first as the hardware stores them (20_memory.md R43), given to `decodeBytes`. -/
def decodeTableWord (nbits w : Nat) : Option Instr :=
  match decodeBytes .little (splitBytes .little 8 (BitVec.ofNat 64 (w % 2 ^ nbits))) with
  | .ok (i, _) => some i
  | .error _ => none

/-! ### The encoder -/

/-- The canonical R type word, its unused bits 63 to 23 zero: op + r1 * 2^8 + r2 * 2^13 + rd * 2^18 (30_encoding.md R61, R76). -/
def encodeR (op : BitVec 8) (rd r1 r2 : Reg) : Word :=
  BitVec.ofNat 64 (op.toNat + r1.val * 2 ^ 8 + r2.val * 2 ^ 13 + rd.val * 2 ^ 18)

/-- The S type word: op + r1 * 2^8 + rd * 2^13 + imm * 2^18 (30_encoding.md R62). -/
def encodeS (op : BitVec 8) (rd r1 : Reg) (imm : ImmS) : Word :=
  BitVec.ofNat 64 (op.toNat + r1.val * 2 ^ 8 + rd.val * 2 ^ 13 + imm.toNat * 2 ^ 18)

/-- The L type word: op + r1 * 2^8 + imm * 2^13 (30_encoding.md R63). -/
def encodeL (op : BitVec 8) (r1 : Reg) (imm : ImmL) : Word :=
  BitVec.ofNat 64 (op.toNat + r1.val * 2 ^ 8 + imm.toNat * 2 ^ 13)

/-- The canonical encoding of an instruction: ignored bits and fields are zero (30_encoding.md R68, R76). -/
def encode (i : Instr) : Word :=
  match i with
  | .andr rd r1 r2 => encodeR 0x00 rd r1 r2
  | .andi rd r1 imm => encodeS 0x01 rd r1 imm
  | .xorr rd r1 r2 => encodeR 0x02 rd r1 r2
  | .xori rd r1 imm => encodeS 0x03 rd r1 imm
  | .orr rd r1 r2 => encodeR 0x04 rd r1 r2
  | .ori rd r1 imm => encodeS 0x05 rd r1 imm
  | .not rd r1 => encodeR 0x06 rd r1 0
  | .cnt rd r1 imm => encodeS 0x07 rd r1 imm
  | .llsr rd r1 r2 => encodeR 0x08 rd r1 r2
  | .llsi rd r1 imm => encodeS 0x09 rd r1 imm
  | .lrsr rd r1 r2 => encodeR 0x0A rd r1 r2
  | .lrsi rd r1 imm => encodeS 0x0B rd r1 imm
  | .alsr rd r1 r2 => encodeR 0x0C rd r1 r2
  | .alsi rd r1 imm => encodeS 0x0D rd r1 imm
  | .arsr rd r1 r2 => encodeR 0x0E rd r1 r2
  | .arsi rd r1 imm => encodeS 0x0F rd r1 imm
  | .addr rd r1 r2 => encodeR 0x10 rd r1 r2
  | .addi rd r1 imm => encodeS 0x11 rd r1 imm
  | .subr rd r1 r2 => encodeR 0x12 rd r1 r2
  | .subi rd r1 imm => encodeS 0x13 rd r1 imm
  | .umulr rd r1 r2 => encodeR 0x14 rd r1 r2
  | .umuli rd r1 imm => encodeS 0x15 rd r1 imm
  | .smulr rd r1 r2 => encodeR 0x16 rd r1 r2
  | .smuli rd r1 imm => encodeS 0x17 rd r1 imm
  | .udivr rd r1 r2 => encodeR 0x18 rd r1 r2
  | .udivi rd r1 imm => encodeS 0x19 rd r1 imm
  | .sdivr rd r1 r2 => encodeR 0x1A rd r1 r2
  | .sdivi rd r1 imm => encodeS 0x1B rd r1 imm
  | .call rd r1 r2 => encodeR 0x1C rd r1 r2
  | .push rd r1 imm => encodeS 0x1D rd r1 imm
  | .retn r1 r2 => encodeR 0x1E 0 r1 r2
  | .pull rd r1 => encodeS 0x1F rd r1 0
  | .ldb rd r1 imm => encodeS 0x20 rd r1 imm
  | .ldh rd r1 imm => encodeS 0x21 rd r1 imm
  | .ldw rd r1 imm => encodeS 0x22 rd r1 imm
  | .ldd rd r1 imm => encodeS 0x23 rd r1 imm
  | .stb rd r1 imm => encodeS 0x24 rd r1 imm
  | .sth rd r1 imm => encodeS 0x25 rd r1 imm
  | .stw rd r1 imm => encodeS 0x26 rd r1 imm
  | .std rd r1 imm => encodeS 0x27 rd r1 imm
  | .jal r1 imm => encodeL 0x28 r1 imm
  | .jalr rd r1 imm => encodeS 0x29 rd r1 imm
  | .je rd r1 imm => encodeS 0x2A rd r1 imm
  | .jne rd r1 imm => encodeS 0x2B rd r1 imm
  | .jgu rd r1 imm => encodeS 0x2C rd r1 imm
  | .jleu rd r1 imm => encodeS 0x2D rd r1 imm

/-- The opcode of each instruction (30_encoding.md R68). -/
def Instr.opcode (i : Instr) : BitVec 8 :=
  match i with
  | .andr .. => 0x00
  | .andi .. => 0x01
  | .xorr .. => 0x02
  | .xori .. => 0x03
  | .orr .. => 0x04
  | .ori .. => 0x05
  | .not .. => 0x06
  | .cnt .. => 0x07
  | .llsr .. => 0x08
  | .llsi .. => 0x09
  | .lrsr .. => 0x0A
  | .lrsi .. => 0x0B
  | .alsr .. => 0x0C
  | .alsi .. => 0x0D
  | .arsr .. => 0x0E
  | .arsi .. => 0x0F
  | .addr .. => 0x10
  | .addi .. => 0x11
  | .subr .. => 0x12
  | .subi .. => 0x13
  | .umulr .. => 0x14
  | .umuli .. => 0x15
  | .smulr .. => 0x16
  | .smuli .. => 0x17
  | .udivr .. => 0x18
  | .udivi .. => 0x19
  | .sdivr .. => 0x1A
  | .sdivi .. => 0x1B
  | .call .. => 0x1C
  | .push .. => 0x1D
  | .retn .. => 0x1E
  | .pull .. => 0x1F
  | .ldb .. => 0x20
  | .ldh .. => 0x21
  | .ldw .. => 0x22
  | .ldd .. => 0x23
  | .stb .. => 0x24
  | .sth .. => 0x25
  | .stw .. => 0x26
  | .std .. => 0x27
  | .jal .. => 0x28
  | .jalr .. => 0x29
  | .je .. => 0x2A
  | .jne .. => 0x2B
  | .jgu .. => 0x2C
  | .jleu .. => 0x2D

end Sys2Proof
end

