-- ==== Sys2Proof/Machine/State.lean ====
section
/-! DEFINITION. The state of the machine (10_state.md), the reasons a step can stop, and the state after reset. -/

namespace Sys2Proof.Machine

/-- The width of a memory access (00_scope.md R12: byte, half word, word, double word). -/
inductive Width where
  | byte
  | half
  | word
  | double
  deriving DecidableEq, Repr

/-- The number of bytes of an access: 1, 2, 4 or 8 (20_memory.md R44). -/
def Width.bytes : Width → Nat
  | .byte => 1
  | .half => 2
  | .word => 4
  | .double => 8

/-- The cause of a raised exception, by name, with what 60_exceptions.md R187 calls its `info`. R187 lists three causes; the fourth is
this model's own (log 37). -/
inductive Cause where
  /-- A divide instruction with divisor 0 (60_exceptions.md R181). -/
  | divisionByZero
  /-- An access of `width` at `addr` that is not inside memory, the fetch included (60_exceptions.md R188). -/
  | memoryRange (addr : Word) (width : Width)
  /-- An instruction word whose opcode is undefined (60_exceptions.md R185). -/
  | invalidInstruction (word : Word)
  /-- A program call with number `n`, other than -1, made on purpose. DESIGN CHOICE (log 37): 45_pcall.md R173 gives such a trap its number
  alone and R187 lists no cause for it, so the model names one of its own, for every such `n`, 0 and 4 included. Unsafe: it tells a
  deliberate call from a fault of the same number, which R173 does not. -/
  | programCall (n : InterruptNumber)
  deriving DecidableEq, Repr

/-- The faults: the terminal outcomes the spec gives a step. -/
inductive Fault where
  /-- Raised by `Machine.raise`, for every exception: the spec's terminal `Trap(cause, number, pc, info)` (60_exceptions.md R187).
  `pc` is the address of the instruction, which has changed nothing (R186). Safe: nothing is claimed after a trap (log 17). -/
  | trap (cause : Cause) (number : InterruptNumber) (pc : Word)
  /-- Raised by `step` when the pc is HALT_PC before a fetch: the run is over, with the state as it stands; not an error
  (70_reset_and_hazards.md R203). Safe: nothing is claimed after the end of a run (log 4). -/
  | halted (pc : Word)
  deriving DecidableEq, Repr

/-- The refusals: what this model gives no meaning to. None can happen with the parameters of `Config.standard`. -/
inductive Refusal where
  /-- Raised by `exec` alone, for an instruction that has no meaning yet. Safe. -/
  | notModelled (mnemonic : String)
  /-- Raised by `checkAccess` for any memory access, the fetch included, once paging is enabled: the source gives no page table format
  (45_pcall.md R167: the model "must refuse to continue"). Safe (log 27). -/
  | pagedAccess (addr : Word)
  /-- Raised by `checkAccess` for an access that is not naturally aligned when ALIGN_REQUIRED is set (20_memory.md R46). Safe (log 9). -/
  | misaligned (addr : Word) (width : Width)
  /-- Raised by `processorInterface` for a function pair the source does not define (45_pcall.md R169, R170, R174). Safe (log 25). -/
  | undefinedFunction (space function : Word)
  /-- Raised by `execJleu` under BRANCH_READING = pseudocode: the source's text is cut there (44_group2_jumps.md R151). Safe (log 21). -/
  | unrecoverableReading
  deriving DecidableEq, Repr

/-- What an operation answers: a value to go on with, a fault, or a refusal. -/
abbrev Result (α : Type) := Host.Outcome α Fault Refusal

/-- Whether a fault is being handled (10_state.md R31, 60_exceptions.md R183, R184). Nothing reads it: traps are terminal. -/
inductive FaultNesting where
  | notInFault
  | inGeneralFault
  | inDoubleFault
  deriving DecidableEq, Repr

/-- The bytes of memory, as (address, byte) pairs in the canonical form of `Memory.wf` (Machine/Memory.lean). -/
abbrev Memory := List Host.Cell

/-- The whole state. `cfg` holds the implementation parameters, which no step changes; the rest is 10_state.md's table. There is no
control register and no memory map to program (10_state.md R32; 70_reset_and_hazards.md R202). -/
structure State where
  /-- The parameters of 00_scope.md R6 (read-only, 10_state.md R32; log 6). -/
  cfg : Config
  /-- `r00` to `r31` (10_state.md R20), read and written through `State.readReg` and `State.writeReg` alone. -/
  regs : Vector Word 32
  /-- The program counter (10_state.md R25). -/
  pc : Word
  /-- Memory (20_memory.md R40). -/
  mem : Memory
  /-- The interrupt vector register, `none` until it is set (10_state.md R29). -/
  ivr : Option Word
  /-- The page root pointer when paging is enabled, `none` while it is not (10_state.md R30). -/
  paging : Option Word
  /-- The fault nesting state (10_state.md R31; log 29). -/
  nesting : FaultNesting
  deriving DecidableEq, Repr

/-- The state at the start of a run (10_state.md R33, 70_reset_and_hazards.md R201) with parameters `c`, where registers and launch
image are arguments (R34). A value given for `r00` is never read. Paging is off, with nothing to set up (R202 item 5). -/
def State.startOfRun (c : Config) (regs : Vector Word 32) (image : Memory) : State where
  cfg := c
  regs := regs
  pc := c.entryPc
  mem := image
  ivr := none
  paging := none
  nesting := .notInFault

/-- The machine right after reset: the start of a run with the parameters of `Config.standard`, every register 0 (DESIGN CHOICE, log 1)
and no byte of memory listed (DESIGN CHOICE: an unlisted byte reads 0, log 5). -/
def State.reset : State := State.startOfRun Config.standard (Vector.replicate 32 0) []

end Sys2Proof.Machine
end

