-- ==== Sys2Proof/Machine/Memory.lean ====
section
/-! DEFINITION. Memory as bytes by address (20_memory.md R40): its canonical form, and reading and writing bytes. Range and byte order
are the business of Machine/Ops.lean and Decode.lean. -/

namespace Sys2Proof.Machine

/-- What a byte that nothing has written reads as. DESIGN CHOICE, unsafe: the spec leaves it unspecified (10_state.md R33; log 5). -/
def unwrittenByte : Byte := 0

/-- The first address of `m`, if it lists one, is above `a`. -/
def Memory.headAbove (a : Nat) : Memory → Bool
  | [] => true
  | (b, _) :: _ => a < b

/-- The canonical form: addresses strictly rising, and no byte listed that an unlisted address would read as. -/
def Memory.wf : Memory → Bool
  | [] => true
  | (a, b) :: m => b != unwrittenByte && Memory.headAbove a m && Memory.wf m

/-- Every listed address is below `n`. -/
def Memory.below (n : Nat) (m : Memory) : Bool := m.all fun c => c.1 < n

/-- The byte at an address. -/
def Memory.read : Memory → Nat → Byte
  | [], _ => unwrittenByte
  | (k, v) :: m, a => if k = a then v else Memory.read m a

/-- `m` without the address `a`, which then reads as unwritten. -/
def Memory.erase (m : Memory) (a : Nat) : Memory := m.filter fun c => c.1 != a

/-- `m` with the byte `b` listed at `a`, in the order of the addresses. -/
def Memory.insert : Memory → Nat → Byte → Memory
  | [], a, b => [(a, b)]
  | (k, v) :: m, a, b =>
    if a < k then (a, b) :: (k, v) :: m
    else if a = k then (a, b) :: m
    else (k, v) :: Memory.insert m a b

/-- Memory with the byte `b` at the address `a`: writing what an unlisted address reads as takes the address off the list. -/
def Memory.write (m : Memory) (a : Nat) (b : Byte) : Memory :=
  if b = unwrittenByte then m.erase a else m.insert a b

/-- The `n` bytes from the address `a` up. -/
def Memory.readBytes (m : Memory) (a : Nat) : Nat → List Byte
  | 0 => []
  | n + 1 => Memory.read m a :: Memory.readBytes m (a + 1) n

/-- Memory with the bytes of a list from the address `a` up. -/
def Memory.writeBytes (m : Memory) (a : Nat) : List Byte → Memory
  | [] => m
  | b :: bs => Memory.writeBytes (Memory.write m a b) (a + 1) bs

end Sys2Proof.Machine
end

