-- ==== Sys2Proof/Machine/Ops.lean ====
section
/-! DEFINITION. The named operations over registers, pc and memory, taking an exception, and fetching a word. -/

namespace Sys2Proof.Machine

/-- Go on with a value, or stop as the operation before stopped. -/
def andThen {α β : Type} (x : Result α) (f : α → Result β) : Result β :=
  match x with
  | .next v => f v
  | .fault r => .fault r
  | .refused r => .refused r

/-! ### Registers and the pc -/

/-- `x[i]`: a read of `r00` gives 0 (00_scope.md R9, 10_state.md R21). -/
def State.readReg (s : State) (r : Reg) : Word := if r = 0 then 0 else s.regs[r.val]

/-- `x[i] <- v`: a write to `r00` is discarded (00_scope.md R9, 10_state.md R21). -/
def State.writeReg (s : State) (r : Reg) (v : Word) : State :=
  if r = 0 then s else { s with regs := s.regs.set r.val v }

/-- `pc <- t` (00_scope.md R9). -/
def State.setPc (s : State) (t : Word) : State := { s with pc := t }

/-- `pc + 8`, the instruction after this one, mod 2^64 (10_state.md R26). -/
def State.nextPc (s : State) : Word := s.pc + 8

/-- The end of an instruction that does not transfer control (10_state.md R26). -/
def State.advance (s : State) : State := s.setPc s.nextPc

/-- The byte of memory at an address. -/
def State.readByte (s : State) (a : Nat) : Byte := s.mem.read a

/-! ### Taking an exception -/

/-- The interrupt number of a cause (60_exceptions.md R180, R187). -/
def Cause.number (c : Config) : Cause → InterruptNumber
  | .divisionByZero => c.pcallDivZero
  | .memoryRange _ _ => c.pcallMemRange
  | .invalidInstruction _ => c.pcallInvalid
  | .programCall n => n

/-- Taking an exception (60_exceptions.md R186, R187). The source gives no entry sequence and no return, and the spec makes every
raised exception terminal: the outcome names cause, number and the pc of the instruction, whatever `ivr` holds, and no part of the
instruction has happened. -/
def raise {α : Type} (s : State) (c : Cause) : Result α := .fault (.trap c (c.number s.cfg) s.pc)

/-! ### Memory accesses -/

/-- Whether an access of `w` at `a` may be made: paging refuses it (45_pcall.md R167), so does ALIGN_REQUIRED where it is not aligned
(20_memory.md R46), and outside memory it raises `MemoryRange` (R47, in unbounded arithmetic). -/
def checkAccess (s : State) (a : Word) (w : Width) : Result Unit :=
  if s.paging.isSome then .refused (.pagedAccess a)
  else if s.cfg.alignRequired && a.toNat % w.bytes != 0 then .refused (.misaligned a w)
  else if a.toNat + w.bytes ≤ s.cfg.memSize then .next ()
  else raise s (.memoryRange a w)

/-- The value of the cell of width `w` at `a`, zero-extended, whether or not it may be accessed (20_memory.md R43). -/
def State.cell (s : State) (a : Word) (w : Width) : Word :=
  joinBytes s.cfg.byteOrder (s.mem.readBytes a.toNat w.bytes)

/-- The state with the low bytes of `v` in the cell of width `w` at `a` (20_memory.md R45). -/
def State.setCell (s : State) (a : Word) (w : Width) (v : Word) : State :=
  { s with mem := s.mem.writeBytes a.toNat (splitBytes s.cfg.byteOrder w.bytes v) }

/-- `MemRead(a, n)` (20_memory.md R44). -/
def memRead (s : State) (a : Word) (w : Width) : Result Word :=
  andThen (checkAccess s a w) fun _ => .next (s.cell a w)

/-- `MemWrite(a, n, v)` (20_memory.md R45). -/
def memWrite (s : State) (a : Word) (w : Width) (v : Word) : Result State :=
  andThen (checkAccess s a w) fun _ => .next (s.setCell a w v)

/-- The word of the instruction at the pc (20_memory.md R41, 30_encoding.md R60). -/
def fetch (s : State) : Result Word := memRead s s.pc .double

/-- The state with the word of `w`'s low `nbits` bits in the 8 bytes at the pc, where `fetch` reads. -/
def State.placeWord (s : State) (nbits w : Nat) : State :=
  s.setCell s.pc .double (BitVec.ofNat 64 (w % 2 ^ nbits))

/-! ### Ways an instruction ends -/

/-- A result written to a register, then on to the next instruction (40_group0_bitwise.md R80, 41_group1_arithmetic.md R100). -/
def finish (s : State) (rd : Reg) (v : Word) : Result State := .next (s.writeReg rd v).advance

end Sys2Proof.Machine
end

