-- ==== Sys2Proof/Machine/Operands.lean ====
section
/-! DEFINITION. Operand assembly: widening immediates (30_encoding.md R65), effective addresses (20_memory.md R48) and jump targets. -/

namespace Sys2Proof.Machine

/-- An immediate field as a 64-bit value (30_encoding.md R65). -/
def widen (e : ImmExt) {n : Nat} (v : BitVec n) : Word :=
  match e with
  | .sign => v.signExtend 64
  | .zero => v.setWidth 64

/-- `imm` of an S type instruction (30_encoding.md R65). -/
def State.immS (s : State) (imm : ImmS) : Word := widen s.cfg.immExt imm

/-- `imm` of an L type instruction (30_encoding.md R65). -/
def State.immL (s : State) (imm : ImmL) : Word := widen s.cfg.immExt imm

/-- Base register plus immediate, mod 2^64: the one addressing mode of loads and stores (20_memory.md R48). -/
def State.effAddr (s : State) (base : Reg) (imm : ImmS) : Word := s.readReg base + s.immS imm

/-- The target of a taken conditional jump: the offset counts instructions of 8 bytes (44_group2_jumps.md R145). -/
def State.branchTarget (s : State) (imm : ImmS) : Word := s.pc + s.immS imm * 8

end Sys2Proof.Machine
end

