-- ==== Sys2Proof/Machine/Arithmetic.lean ====
section
/-! DEFINITION. Group one: integer arithmetic, opcodes 0x10 to 0x1B (41_group1_arithmetic.md). -/

namespace Sys2Proof.Machine

/-- What the four divide instructions share (41_group1_arithmetic.md R110): the divisor is tested before anything else, and 0 raises
`DivisionByZero`, whatever `rd` is. -/
def divide (quotient : Word → Word → Word) (s : State) (rd : Reg) (a b : Word) : Result State :=
  if b = 0 then raise s .divisionByZero else finish s rd (quotient a b)

/-- `addr` (41_group1_arithmetic.md R101): add, register; overflow is discarded. -/
def execAddr (rd r1 r2 : Reg) (s : State) : Result State :=
  finish s rd (s.readReg r1 + s.readReg r2)

/-- `addi` (41_group1_arithmetic.md R102): add, immediate; overflow is discarded. -/
def execAddi (rd r1 : Reg) (imm : ImmS) (s : State) : Result State :=
  finish s rd (s.readReg r1 + s.immS imm)

/-- `subr` (41_group1_arithmetic.md R103): subtract, register; overflow is discarded. -/
def execSubr (rd r1 r2 : Reg) (s : State) : Result State :=
  finish s rd (s.readReg r1 - s.readReg r2)

/-- `subi` (41_group1_arithmetic.md R104): subtract, immediate; overflow is discarded. -/
def execSubi (rd r1 : Reg) (imm : ImmS) (s : State) : Result State :=
  finish s rd (s.readReg r1 - s.immS imm)

/-- `umulr` (41_group1_arithmetic.md R105): unsigned multiply, register. -/
def execUmulr (rd r1 r2 : Reg) (s : State) : Result State :=
  finish s rd (mulUnsigned (s.readReg r1) (s.readReg r2))

/-- `umuli` (41_group1_arithmetic.md R106): unsigned multiply, immediate. -/
def execUmuli (rd r1 : Reg) (imm : ImmS) (s : State) : Result State :=
  finish s rd (mulUnsigned (s.readReg r1) (s.immS imm))

/-- `smulr` (41_group1_arithmetic.md R107): signed multiply, register. -/
def execSmulr (rd r1 r2 : Reg) (s : State) : Result State :=
  finish s rd (mulSigned (s.readReg r1) (s.readReg r2))

/-- `smuli` (41_group1_arithmetic.md R108): signed multiply, immediate. -/
def execSmuli (rd r1 : Reg) (imm : ImmS) (s : State) : Result State :=
  finish s rd (mulSigned (s.readReg r1) (s.immS imm))

/-- `udivr` (41_group1_arithmetic.md R113): unsigned divide, register. -/
def execUdivr (rd r1 r2 : Reg) (s : State) : Result State :=
  divide divUnsigned s rd (s.readReg r1) (s.readReg r2)

/-- `udivi` (41_group1_arithmetic.md R114): unsigned divide, immediate. -/
def execUdivi (rd r1 : Reg) (imm : ImmS) (s : State) : Result State :=
  divide divUnsigned s rd (s.readReg r1) (s.immS imm)

/-- `sdivr` (41_group1_arithmetic.md R115): signed divide, register. -/
def execSdivr (rd r1 r2 : Reg) (s : State) : Result State :=
  divide divSigned s rd (s.readReg r1) (s.readReg r2)

/-- `sdivi` (41_group1_arithmetic.md R116): signed divide, immediate. -/
def execSdivi (rd r1 : Reg) (imm : ImmS) (s : State) : Result State :=
  divide divSigned s rd (s.readReg r1) (s.immS imm)

end Sys2Proof.Machine
end

