-- ==== Sys2Proof/Machine/Bitwise.lean ====
section
/-! DEFINITION. Group zero: the bitwise instructions, opcodes 0x00 to 0x0F (40_group0_bitwise.md). -/

namespace Sys2Proof.Machine

/-- `andr` (40_group0_bitwise.md R81): bitwise AND, register. -/
def execAndr (rd r1 r2 : Reg) (s : State) : Result State :=
  finish s rd (s.readReg r1 &&& s.readReg r2)

/-- `andi` (40_group0_bitwise.md R82): bitwise AND, immediate. -/
def execAndi (rd r1 : Reg) (imm : ImmS) (s : State) : Result State :=
  finish s rd (s.readReg r1 &&& s.immS imm)

/-- `xorr` (40_group0_bitwise.md R83): bitwise exclusive OR, register. -/
def execXorr (rd r1 r2 : Reg) (s : State) : Result State :=
  finish s rd (s.readReg r1 ^^^ s.readReg r2)

/-- `xori` (40_group0_bitwise.md R84): bitwise exclusive OR, immediate. -/
def execXori (rd r1 : Reg) (imm : ImmS) (s : State) : Result State :=
  finish s rd (s.readReg r1 ^^^ s.immS imm)

/-- `orr` (40_group0_bitwise.md R85): bitwise OR, register. -/
def execOrr (rd r1 r2 : Reg) (s : State) : Result State :=
  finish s rd (s.readReg r1 ||| s.readReg r2)

/-- `ori` (40_group0_bitwise.md R86): bitwise OR, immediate. -/
def execOri (rd r1 : Reg) (imm : ImmS) (s : State) : Result State :=
  finish s rd (s.readReg r1 ||| s.immS imm)

/-- `not` (40_group0_bitwise.md R87): one's complement; the field `r2` is not read. -/
def execNot (rd r1 : Reg) (s : State) : Result State :=
  finish s rd (~~~(s.readReg r1))

/-- `cnt` (40_group0_bitwise.md R88): population count without the highest `imm` bits. -/
def execCnt (rd r1 : Reg) (imm : ImmS) (s : State) : Result State :=
  finish s rd (countBits s.cfg.cntReading (s.readReg r1) (s.immS imm))

/-- `llsr` (40_group0_bitwise.md R90): logical left shift, register amount. -/
def execLlsr (rd r1 r2 : Reg) (s : State) : Result State :=
  finish s rd (shiftLeft (s.readReg r1) (s.readReg r2))

/-- `llsi` (40_group0_bitwise.md R91): logical left shift, immediate amount. -/
def execLlsi (rd r1 : Reg) (imm : ImmS) (s : State) : Result State :=
  finish s rd (shiftLeft (s.readReg r1) (s.immS imm))

/-- `lrsr` (40_group0_bitwise.md R92): logical right shift, register amount. -/
def execLrsr (rd r1 r2 : Reg) (s : State) : Result State :=
  finish s rd (shiftRight (s.readReg r1) (s.readReg r2))

/-- `lrsi` (40_group0_bitwise.md R93): logical right shift, immediate amount. -/
def execLrsi (rd r1 : Reg) (imm : ImmS) (s : State) : Result State :=
  finish s rd (shiftRight (s.readReg r1) (s.immS imm))

/-- `alsr` (40_group0_bitwise.md R94): arithmetical left shift, register amount. -/
def execAlsr (rd r1 r2 : Reg) (s : State) : Result State :=
  finish s rd (shiftLeftArith (s.readReg r1) (s.readReg r2))

/-- `alsi` (40_group0_bitwise.md R95): arithmetical left shift, immediate amount. -/
def execAlsi (rd r1 : Reg) (imm : ImmS) (s : State) : Result State :=
  finish s rd (shiftLeftArith (s.readReg r1) (s.immS imm))

/-- `arsr` (40_group0_bitwise.md R96): arithmetical right shift, register amount. -/
def execArsr (rd r1 r2 : Reg) (s : State) : Result State :=
  finish s rd (shiftRightArith (s.readReg r1) (s.readReg r2))

/-- `arsi` (40_group0_bitwise.md R97): arithmetical right shift, immediate amount. -/
def execArsi (rd r1 : Reg) (imm : ImmS) (s : State) : Result State :=
  finish s rd (shiftRightArith (s.readReg r1) (s.immS imm))

end Sys2Proof.Machine
end

