-- ==== Sys2Proof/Machine/CallStack.lean ====
section
/-! DEFINITION. Group one: call and stack instructions, opcodes 0x1C to 0x1F (42_group1_call_stack.md). Every meaning performs the
lines of its rule in the order written, each seeing the registers the lines before it left (R120); a line that raises ends the
instruction with nothing of it done (60_exceptions.md R186). The stack grows toward higher addresses (R121), by 16 bytes a `call` and 8
a `push` (70_reset_and_hazards.md R202 item 1). -/

namespace Sys2Proof.Machine

/-- `call` (42_group1_call_stack.md R122): `rd` holds the target, `r1` is the stack pointer, `r2` the frame pointer; the target is read after both are
written. -/
def execCall (rd r1 r2 : Reg) (s : State) : Result State :=
  andThen (memWrite s (s.readReg r1) .double (s.readReg r2)) fun t₁ =>
    andThen (memWrite t₁ (s.readReg r1 + 8) .double s.nextPc) fun t₂ =>
      let t₃ := t₂.writeReg r1 (s.readReg r1 + 16)
      let t₄ := t₃.writeReg r2 (t₃.readReg r1)
      .next (t₄.setPc (t₄.readReg rd))

/-- `push` (42_group1_call_stack.md R123): `rd` is the stack pointer, `r1` holds the value that `imm` is added to. -/
def execPush (rd r1 : Reg) (imm : ImmS) (s : State) : Result State :=
  andThen (memWrite s (s.readReg rd) .double (s.readReg r1 + s.immS imm)) fun t =>
    .next (t.writeReg rd (t.readReg rd + 8)).advance

/-- `retn` (42_group1_call_stack.md R124): `r1` is the stack pointer, `r2` the frame pointer; the return address is read with `r1` as the line before it
left it (90_conflicts.md C17). -/
def execRetn (r1 r2 : Reg) (s : State) : Result State :=
  let t₁ := s.writeReg r1 (s.readReg r1 - 16)
  andThen (memRead t₁ (t₁.readReg r1) .double) fun bp =>
    let t₂ := t₁.writeReg r2 bp
    andThen (memRead t₂ (t₂.readReg r1 + 8) .double) fun target => .next (t₂.setPc target)

/-- `pull` (42_group1_call_stack.md R125): `r1` is the stack pointer; it is lowered as the load into `rd` left it. -/
def execPull (rd r1 : Reg) (s : State) : Result State :=
  andThen (memRead s (s.readReg r1 - 8) .double) fun v =>
    let t := s.writeReg rd v
    .next (t.writeReg r1 (t.readReg r1 - 8)).advance

end Sys2Proof.Machine
end

