-- ==== Sys2Proof/Machine/Flags.lean ====
section
/-! DEFINITION. The processor has no flags, condition codes or predicates (10_state.md R28): the conditional jumps compare two registers
directly. Here are those comparisons, in the reading `BRANCH_READING` names (90_conflicts.md C3, C5, C6; log 21). -/

namespace Sys2Proof.Machine

/-- `je` (44_group2_jumps.md R148): `a` is the left operand, field `rd`. -/
def takenJe (reading : Reading) (a b : Word) : Bool :=
  match reading with
  | .prose => a == b
  | .pseudocode => a != b

/-- `jne`, on which prose and pseudocode agree (44_group2_jumps.md R149). -/
def takenJne (a b : Word) : Bool := a != b

/-- `jgu` (44_group2_jumps.md R150): the pseudocode tests bit 63 of the difference. -/
def takenJgu (reading : Reading) (a b : Word) : Bool :=
  match reading with
  | .prose => b.toNat < a.toNat
  | .pseudocode => !(a - b).msb

/-- `jleu` (44_group2_jumps.md R151): its pseudocode is cut and has no reading. -/
def takenJleu (reading : Reading) (a b : Word) : Option Bool :=
  match reading with
  | .prose => some (a.toNat ≤ b.toNat)
  | .pseudocode => none

end Sys2Proof.Machine
end

