-- ==== Sys2Proof/Machine/Jumps.lean ====
section
/-! DEFINITION. Group two: jumps, opcodes 0x28 to 0x2D (44_group2_jumps.md). No jump checks its target (R152): a bad one shows at the
next fetch. -/

namespace Sys2Proof.Machine

/-- A conditional jump whose condition is `taken` (44_group2_jumps.md R145). -/
def branch (taken : Bool) (imm : ImmS) (s : State) : Result State :=
  .next (s.setPc (if taken then s.branchTarget imm else s.nextPc))

/-- `jal` (44_group2_jumps.md R146): the link register is the field `r1` of the L type; the offset is in bytes. -/
def execJal (r1 : Reg) (imm : ImmL) (s : State) : Result State :=
  .next ((s.writeReg r1 s.nextPc).setPc (s.pc + s.immL imm))

/-- `jalr` (44_group2_jumps.md R147): the target is relative to the pc and to `r1`, read after the link is written
(42_group1_call_stack.md R120). -/
def execJalr (rd r1 : Reg) (imm : ImmS) (s : State) : Result State :=
  let t := s.writeReg rd s.nextPc
  .next (t.setPc (s.pc + t.readReg r1 + s.immS imm))

/-- `je` (44_group2_jumps.md R148): jump if equal. -/
def execJe (rd r1 : Reg) (imm : ImmS) (s : State) : Result State :=
  branch (takenJe s.cfg.branchReading (s.readReg rd) (s.readReg r1)) imm s

/-- `jne` (44_group2_jumps.md R149): jump if not equal. -/
def execJne (rd r1 : Reg) (imm : ImmS) (s : State) : Result State :=
  branch (takenJne (s.readReg rd) (s.readReg r1)) imm s

/-- `jgu` (44_group2_jumps.md R150): jump if greater, unsigned. -/
def execJgu (rd r1 : Reg) (imm : ImmS) (s : State) : Result State :=
  branch (takenJgu s.cfg.branchReading (s.readReg rd) (s.readReg r1)) imm s

/-- `jleu` (44_group2_jumps.md R151): jump if less or equal, unsigned. -/
def execJleu (rd r1 : Reg) (imm : ImmS) (s : State) : Result State :=
  match takenJleu s.cfg.branchReading (s.readReg rd) (s.readReg r1) with
  | some taken => branch taken imm s
  | none => .refused .unrecoverableReading

end Sys2Proof.Machine
end

