-- ==== Sys2Proof/Machine/LoadStore.lean ====
section
/-! DEFINITION. Group two: loads and stores, opcodes 0x20 to 0x27 (43_group2_load_store.md). -/

namespace Sys2Proof.Machine

/-- A load of width `w` (43_group2_load_store.md R130): the cell at base plus immediate, zero-extended, into `rd`. -/
def load (w : Width) (rd r1 : Reg) (imm : ImmS) (s : State) : Result State :=
  andThen (memRead s (s.effAddr r1 imm) w) fun v => finish s rd v

/-- A store of width `w` (43_group2_load_store.md R135): field `rd` is the base and only read, field `r1` the value. -/
def store (w : Width) (rd r1 : Reg) (imm : ImmS) (s : State) : Result State :=
  andThen (memWrite s (s.effAddr rd imm) w (s.readReg r1)) fun t => .next t.advance

/-- `ldb` (43_group2_load_store.md R131): load byte. -/
def execLdb (rd r1 : Reg) (imm : ImmS) (s : State) : Result State :=
  load .byte rd r1 imm s

/-- `ldh` (43_group2_load_store.md R132): load half word. -/
def execLdh (rd r1 : Reg) (imm : ImmS) (s : State) : Result State :=
  load .half rd r1 imm s

/-- `ldw` (43_group2_load_store.md R133): load word. -/
def execLdw (rd r1 : Reg) (imm : ImmS) (s : State) : Result State :=
  load .word rd r1 imm s

/-- `ldd` (43_group2_load_store.md R134): load double word. -/
def execLdd (rd r1 : Reg) (imm : ImmS) (s : State) : Result State :=
  load .double rd r1 imm s

/-- `stb` (43_group2_load_store.md R136): store byte. -/
def execStb (rd r1 : Reg) (imm : ImmS) (s : State) : Result State :=
  store .byte rd r1 imm s

/-- `sth` (43_group2_load_store.md R137): store half word. -/
def execSth (rd r1 : Reg) (imm : ImmS) (s : State) : Result State :=
  store .half rd r1 imm s

/-- `stw` (43_group2_load_store.md R138): store word. -/
def execStw (rd r1 : Reg) (imm : ImmS) (s : State) : Result State :=
  store .word rd r1 imm s

/-- `std` (43_group2_load_store.md R139): store double word. The value is field `r1` (90_conflicts.md C8). -/
def execStd (rd r1 : Reg) (imm : ImmS) (s : State) : Result State :=
  store .double rd r1 imm s

end Sys2Proof.Machine
end

