-- ==== Sys2Proof/Machine/Dispatch.lean ====
section
/-! DEFINITION. The meaning of every instruction: one arm per constructor, in the order of spec/opcode_table.json. -/

namespace Sys2Proof.Machine

def exec (i : Instr) (s : State) : Host.Outcome State Fault Refusal :=
  match i with
  | .andr rd r1 r2 => Sys2Proof.Machine.execAndr rd r1 r2 s
  | .andi rd r1 imm => Sys2Proof.Machine.execAndi rd r1 imm s
  | .xorr rd r1 r2 => Sys2Proof.Machine.execXorr rd r1 r2 s
  | .xori rd r1 imm => Sys2Proof.Machine.execXori rd r1 imm s
  | .orr rd r1 r2 => Sys2Proof.Machine.execOrr rd r1 r2 s
  | .ori rd r1 imm => Sys2Proof.Machine.execOri rd r1 imm s
  | .not rd r1 => Sys2Proof.Machine.execNot rd r1 s
  | .cnt rd r1 imm => Sys2Proof.Machine.execCnt rd r1 imm s
  | .llsr rd r1 r2 => Sys2Proof.Machine.execLlsr rd r1 r2 s
  | .llsi rd r1 imm => Sys2Proof.Machine.execLlsi rd r1 imm s
  | .lrsr rd r1 r2 => Sys2Proof.Machine.execLrsr rd r1 r2 s
  | .lrsi rd r1 imm => Sys2Proof.Machine.execLrsi rd r1 imm s
  | .alsr rd r1 r2 => Sys2Proof.Machine.execAlsr rd r1 r2 s
  | .alsi rd r1 imm => Sys2Proof.Machine.execAlsi rd r1 imm s
  | .arsr rd r1 r2 => Sys2Proof.Machine.execArsr rd r1 r2 s
  | .arsi rd r1 imm => Sys2Proof.Machine.execArsi rd r1 imm s
  | .addr rd r1 r2 => Sys2Proof.Machine.execAddr rd r1 r2 s
  | .addi rd r1 imm => Sys2Proof.Machine.execAddi rd r1 imm s
  | .subr rd r1 r2 => Sys2Proof.Machine.execSubr rd r1 r2 s
  | .subi rd r1 imm => Sys2Proof.Machine.execSubi rd r1 imm s
  | .umulr rd r1 r2 => Sys2Proof.Machine.execUmulr rd r1 r2 s
  | .umuli rd r1 imm => Sys2Proof.Machine.execUmuli rd r1 imm s
  | .smulr rd r1 r2 => Sys2Proof.Machine.execSmulr rd r1 r2 s
  | .smuli rd r1 imm => Sys2Proof.Machine.execSmuli rd r1 imm s
  | .udivr rd r1 r2 => Sys2Proof.Machine.execUdivr rd r1 r2 s
  | .udivi rd r1 imm => Sys2Proof.Machine.execUdivi rd r1 imm s
  | .sdivr rd r1 r2 => Sys2Proof.Machine.execSdivr rd r1 r2 s
  | .sdivi rd r1 imm => Sys2Proof.Machine.execSdivi rd r1 imm s
  | .call rd r1 r2 => Sys2Proof.Machine.execCall rd r1 r2 s
  | .push rd r1 imm => Sys2Proof.Machine.execPush rd r1 imm s
  | .retn r1 r2 => Sys2Proof.Machine.execRetn r1 r2 s
  | .pull rd r1 => Sys2Proof.Machine.execPull rd r1 s
  | .ldb rd r1 imm => Sys2Proof.Machine.execLdb rd r1 imm s
  | .ldh rd r1 imm => Sys2Proof.Machine.execLdh rd r1 imm s
  | .ldw rd r1 imm => Sys2Proof.Machine.execLdw rd r1 imm s
  | .ldd rd r1 imm => Sys2Proof.Machine.execLdd rd r1 imm s
  | .stb rd r1 imm => Sys2Proof.Machine.execStb rd r1 imm s
  | .sth rd r1 imm => Sys2Proof.Machine.execSth rd r1 imm s
  | .stw rd r1 imm => Sys2Proof.Machine.execStw rd r1 imm s
  | .std rd r1 imm => Sys2Proof.Machine.execStd rd r1 imm s
  | .jal r1 imm => Sys2Proof.Machine.execJal r1 imm s
  | .jalr rd r1 imm => Sys2Proof.Machine.execJalr rd r1 imm s
  | .je rd r1 imm => Sys2Proof.Machine.execJe rd r1 imm s
  | .jne rd r1 imm => Sys2Proof.Machine.execJne rd r1 imm s
  | .jgu rd r1 imm => Sys2Proof.Machine.execJgu rd r1 imm s
  | .jleu rd r1 imm => Sys2Proof.Machine.execJleu rd r1 imm s

end Sys2Proof.Machine
end

