-- ==== Sys2Proof/Machine/Pcall.lean ====
section
/-! DEFINITION. Program calls (45_pcall.md): the operation `pcall n` and the processor interface `pcall -1`. The spec gives `pcall` no
encoding; a word is a program call only where the parameter PCALL_OPCODE says so (R175, log 16). -/

namespace Sys2Proof.Machine

/-- What interrupt vector check returns in `r31` (45_pcall.md R164). -/
def ivModeCode : IvMode → Word
  | .impossible => 0
  | .fixedAddress => 1
  | .anywhere => 2

/-- Interrupt vector check, `r29:r28` = 0:0 (45_pcall.md R164). -/
def interruptVectorCheck (s : State) : State :=
  let t := s.writeReg 31 (ivModeCode s.cfg.ivMode)
  match s.cfg.ivMode with
  | .impossible => t.advance
  | .fixedAddress => ((t.writeReg 30 s.cfg.ivCount).writeReg 29 s.cfg.ivR29).advance
  | .anywhere => (t.writeReg 30 s.cfg.ivCount).advance

/-- Interrupt vector enable, 0:1: `r31` is taken only where the check returns 2, "else value is just ignored" (45_pcall.md R165). -/
def interruptVectorEnable (s : State) : State :=
  match s.cfg.ivMode with
  | .anywhere => { s with ivr := some (s.readReg 31) }.advance
  | .impossible => s.advance
  | .fixedAddress => s.advance

/-- Paging check, 1:0 (45_pcall.md R166). -/
def pagingCheck (s : State) : State :=
  let t := s.writeReg 31 s.cfg.pageLevels
  if s.cfg.pageLevels = 0 then t.advance else (t.writeReg 30 s.cfg.pageSize).advance

/-- Paging enable, 1:1: no effect where there is no paging (45_pcall.md R167). Nothing else turns paging on (70_reset_and_hazards.md R202
item 5). -/
def pagingEnable (s : State) : State :=
  if s.cfg.pageLevels = 0 then s.advance else { s with paging := some (s.readReg 30) }.advance

/-- Model information check, 2:0: "set" is read as 1 (45_pcall.md R168). -/
def informationCheck (s : State) : State :=
  (s.writeReg 31 (if s.cfg.modelInfo then 1 else 0)).advance

/-- The implementation check of a group that is absent: `x[31] <- 0` (45_pcall.md R163, R170, R174). -/
def absentGroupCheck (s : State) : State := (s.writeReg 31 0).advance

/-- `pcall -1`: `r29` selects the group and `r28` the function, both as full 64-bit values (45_pcall.md R162). A pair the source does
not define is refused (R169, R170, R174). -/
def processorInterface (s : State) : Result State :=
  let space := s.readReg 29
  let function := s.readReg 28
  if space = 0 ∧ function = 0 then .next (interruptVectorCheck s)
  else if space = 0 ∧ function = 1 then .next (interruptVectorEnable s)
  else if space = 1 ∧ function = 0 then .next (pagingCheck s)
  else if space = 1 ∧ function = 1 then .next (pagingEnable s)
  else if space = 2 ∧ function = 0 then .next (informationCheck s)
  else if function = 0 then .next (absentGroupCheck s)
  else .refused (.undefinedFunction space function)

/-- `pcall n` (45_pcall.md R160, R173): -1 is the processor interface, any other number raises that interrupt, as a fault would; the cause
its trap carries is the model's choice (log 37). -/
def pcall (n : InterruptNumber) (s : State) : Result State :=
  if n = DefaultInterrupt.processorInterface.number then processorInterface s else raise s (.programCall n)

/-- The number of a program call, where `w`'s opcode is the one the owner gave `pcall`: its number field read as signed (45_pcall.md
R161, R175; log 16). -/
def pcallNumber (c : Config) (w : Word) : Option InterruptNumber :=
  match c.pcallEncoding with
  | none => none
  | some e =>
    if opcodeField w = e.opcode then some ((w.extractLsb' e.numberLo e.numberWidth).signExtend 51) else none

/-- A word whose opcode the table does not define: a program call where PCALL_OPCODE names its opcode, else `InvalidInstruction`
(30_encoding.md R70). -/
def execUndefined (w : Word) (s : State) : Result State :=
  match pcallNumber s.cfg w with
  | some n => pcall n s
  | none => raise s (.invalidInstruction w)

end Sys2Proof.Machine
end

