-- ==== Sys2Proof/Machine/Step.lean ====
section
/-! DEFINITION. One step of the machine (70_reset_and_hazards.md, section 6): halt, fetch, decode, execute. -/

namespace Sys2Proof.Machine

/-- Decode a word and execute it (30_encoding.md R64, R70). -/
def runWord (w : Word) (s : State) : Result State :=
  match decodeWord w with
  | .ok i => exec i s
  | .error _ => execUndefined w s

/-- One step: the run is over at HALT_PC (70_reset_and_hazards.md R203); otherwise the word at the pc is fetched and run. -/
def step (s : State) : Host.Outcome State Fault Refusal :=
  if s.pc = s.cfg.haltPc then .fault (.halted s.pc) else andThen (fetch s) fun w => runWord w s

/-- `s` with the low `nbits` bits of `w` stored as the instruction at the pc, where `step` fetches. It stands for the load of a
program from outside the machine (log 7). -/
def State.withFetchWord (s : State) (nbits w : Nat) : State := s.placeWord nbits w

end Sys2Proof.Machine
end

