-- ==== Sys2Proof/Safety.lean ====
section
/-! DEFINITION. The vocabulary of the claims: the invariant, which accesses may be made, what a step leaves unchanged, and how a
word's fields reach an instruction. -/

namespace Sys2Proof.Machine

/-! ### The invariant -/

/-- The facts every step keeps: memory has its canonical form and lists no address outside 0 .. MEMSIZE - 1 (20_memory.md R40), the
stored `r00` is 0 (10_state.md R21), paging is never enabled on a processor without it (10_state.md R30), the interrupt vector register
is never set where the check does not return 2 (45_pcall.md R165), and no fault is being handled (10_state.md R31, R33). -/
abbrev Inv (s : State) : Prop :=
  Memory.wf s.mem = true ∧ Memory.below s.cfg.memSize s.mem = true ∧ s.regs[0] = 0 ∧
    (s.cfg.pageLevels = 0 → s.paging = none) ∧ (s.cfg.ivMode ≠ .anywhere → s.ivr = none) ∧ s.nesting = .notInFault

/-! ### Accesses -/

/-- No refusal stands in the way of an access of width `w` at `a`: paging is off and the access is aligned if it has to be. -/
abbrev Permitted (s : State) (a : Word) (w : Width) : Prop :=
  s.paging = none ∧ (s.cfg.alignRequired = false ∨ a.toNat % w.bytes = 0)

/-- The access lies inside memory (20_memory.md R47, in unbounded arithmetic). -/
abbrev InRange (s : State) (a : Word) (w : Width) : Prop := a.toNat + w.bytes ≤ s.cfg.memSize

/-- The access completes. -/
abbrev Accessible (s : State) (a : Word) (w : Width) : Prop := Permitted s a w ∧ InRange s a w

/-- The terminal trap of a `MemoryRange` exception of the instruction at the pc (60_exceptions.md R187, R188). -/
def rangeTrap {α : Type} (s : State) (a : Word) (w : Width) : Result α :=
  .fault (.trap (.memoryRange a w) s.cfg.pcallMemRange s.pc)

/-- The terminal trap of a `DivisionByZero` exception of the instruction at the pc (60_exceptions.md R181, R187). -/
def divisionTrap (s : State) : Result State := .fault (.trap .divisionByZero s.cfg.pcallDivZero s.pc)

/-- The value of the `n`-byte cell at `a`, as 20_memory.md R43 writes it: the byte at the lowest address is the least significant one in
little-endian order, the most significant one in the other. -/
def cellValue (s : State) (a n : Nat) : Nat :=
  match s.cfg.byteOrder with
  | .little => ((List.range n).map fun i => (s.readByte (a + i)).toNat * 256 ^ i).sum
  | .big => ((List.range n).map fun i => (s.readByte (a + i)).toNat * 256 ^ (n - 1 - i)).sum

/-! ### Frames -/

/-- The parameters and the state no instruction of the table reaches are unchanged (10_state.md R29 to R32). -/
def SameSystem (s t : State) : Prop :=
  t.cfg = s.cfg ∧ t.ivr = s.ivr ∧ t.paging = s.paging ∧ t.nesting = s.nesting

/-- Every byte of memory is unchanged. -/
def SameMemory (s t : State) : Prop := ∀ a, t.readByte a = s.readByte a

/-- Every byte of memory outside the `n` bytes from `a` up is unchanged. -/
def SameMemoryOutside (s t : State) (a n : Nat) : Prop :=
  ∀ b, b < a ∨ a + n ≤ b → t.readByte b = s.readByte b

/-- Every register is unchanged. -/
def SameRegisters (s t : State) : Prop := ∀ r, t.readReg r = s.readReg r

/-- Register `rd` holds `v`, or nothing was written where `rd` is `r00`, and every other register is unchanged (10_state.md R21). -/
def OnlyRegister (s t : State) (rd : Reg) (v : Word) : Prop :=
  ∀ r, t.readReg r = if r = rd ∧ r ≠ 0 then v else s.readReg r

/-- The instruction wrote `v` to `rd`, went on to the next instruction and did nothing else. -/
def WritesResult (s t : State) (rd : Reg) (v : Word) : Prop :=
  OnlyRegister s t rd v ∧ t.pc = s.pc + 8 ∧ SameMemory s t ∧ SameSystem s t

/-- The instruction set the pc to `target` and did nothing else. -/
def JumpsTo (s t : State) (target : Word) : Prop :=
  SameRegisters s t ∧ t.pc = target ∧ SameMemory s t ∧ SameSystem s t

/-! ### From words to instructions -/

/-- The register number in the 5 bits of `w` from `lo` up. -/
def regAt (w : Word) (lo : Nat) : Reg := Fin.ofNat 32 (w.toNat / 2 ^ lo)

/-- Every word with opcode `op` decodes as the R type instruction `mk rd r1 r2` (30_encoding.md R61). -/
def DecodesR (op : Nat) (mk : Reg → Reg → Reg → Instr) : Prop :=
  ∀ w : Word, w.toNat % 256 = op → decodeWord w = .ok (mk (regAt w 18) (regAt w 8) (regAt w 13))

/-- Every word with opcode `op` decodes as the S type instruction `mk rd r1 imm` (30_encoding.md R62). -/
def DecodesS (op : Nat) (mk : Reg → Reg → ImmS → Instr) : Prop :=
  ∀ w : Word, w.toNat % 256 = op →
    decodeWord w = .ok (mk (regAt w 13) (regAt w 8) (BitVec.ofNat 46 (w.toNat / 2 ^ 18)))

/-- Every word with opcode `op` decodes as the L type instruction `mk r1 imm` (30_encoding.md R63). -/
def DecodesL (op : Nat) (mk : Reg → ImmL → Instr) : Prop :=
  ∀ w : Word, w.toNat % 256 = op → decodeWord w = .ok (mk (regAt w 8) (BitVec.ofNat 51 (w.toNat / 2 ^ 13)))

/-- The bits of a word that an instruction uses (30_encoding.md R61 to R63, R67): all of them in the S and L types but for `pull`'s
immediate; the opcode and the three registers in the R type, without `not`'s `r2` and `retn`'s `rd`. -/
def usedBits : Instr → Word
  | .not .. => 0x7C1FFF
  | .retn .. | .pull .. => 0x3FFFF
  | .andr .. | .xorr .. | .orr .. | .llsr .. | .lrsr .. | .alsr .. | .arsr .. | .addr .. | .subr ..
  | .umulr .. | .smulr .. | .udivr .. | .sdivr .. | .call .. => 0x7FFFFF
  | .andi .. | .xori .. | .ori .. | .cnt .. | .llsi .. | .lrsi .. | .alsi .. | .arsi .. | .addi ..
  | .subi .. | .umuli .. | .smuli .. | .udivi .. | .sdivi .. | .push .. | .ldb .. | .ldh .. | .ldw ..
  | .ldd .. | .stb .. | .sth .. | .stw .. | .std .. | .jal .. | .jalr .. | .je .. | .jne .. | .jgu ..
  | .jleu .. => 0xFFFFFFFFFFFFFFFF

/-! ### Changing one part of a state -/

/-- The outcome with `f` applied to its next state. -/
def mapNext (f : State → State) (x : Result State) : Result State := andThen x fun t => .next (f t)

/-- The instructions that make a memory access besides their fetch (20_memory.md R49). -/
def accessesMemory : Instr → Bool
  | .ldb .. | .ldh .. | .ldw .. | .ldd .. => true
  | .stb .. | .sth .. | .stw .. | .std .. => true
  | .call .. | .push .. | .retn .. | .pull .. => true
  | _ => false

/-- The instructions that write the pc by a rule of their own (10_state.md R26). -/
def transfersControl : Instr → Bool
  | .call .. | .retn .. => true
  | .jal .. | .jalr .. | .je .. | .jne .. | .jgu .. | .jleu .. => true
  | _ => false

/-- The divisor of a divide instruction in a state. -/
def divisor? (s : State) : Instr → Option Word
  | .udivr _ _ r2 => some (s.readReg r2)
  | .sdivr _ _ r2 => some (s.readReg r2)
  | .udivi _ _ imm => some (s.immS imm)
  | .sdivi _ _ imm => some (s.immS imm)
  | _ => none

end Sys2Proof.Machine
end

