-- ==== Sys2Proof/Certificates/Slice0/Obligations.lean ====
section
/-! DEFINITION. The statements for the provers. Each states a rule of spec/, or what follows from several; a clause that rests on a
choice, of the spec's own or of the model, says so and names the log entry. -/

open Sys2Proof Sys2Proof.Machine

/-- O1. Decoding the canonical word of any instruction gives the instruction back. Rests on 30_encoding.md section 1
(R61, R62, R63); 30_encoding.md section 5, the encoding formulas. -/
def Obligations.DecodeOfEncodeIsTheInstruction : Prop :=
  ∀ i : Instr, decodeWord (encode i) = .ok i

/-- O2. Encoding what a word decodes to gives the word with the bits its instruction ignores cleared. Rests on
30_encoding.md section 2 (R67, the spec's decision D8); 30_encoding.md section 5 (R76). -/
def Obligations.EncodeOfDecodeIsTheCanonicalWord : Prop :=
  ∀ (w : Word) (i : Instr), decodeWord w = .ok i → encode i = w &&& usedBits i

/-- O3. Two words that agree on the bits an instruction uses decode alike. Rests on 30_encoding.md section 2 (R67, the
spec's decision D8). -/
def Obligations.IgnoredBitsHaveNoEffect : Prop :=
  ∀ (w w' : Word) (i : Instr), decodeWord w = .ok i → w &&& usedBits i = w' &&& usedBits i → decodeWord w' = .ok i

/-- O4. A word decodes exactly when its low byte is 0x00 to 0x2D, to an instruction with that opcode. Rests on
30_encoding.md section 3 (R68); 30_encoding.md section 4 (R70, the spec's decision D9; R71); 30_encoding.md section 1
(R64). -/
def Obligations.ExactlyTheTableOpcodesDecode : Prop :=
  ∀ w : Word,
    (w.toNat % 256 ≤ 0x2D → ∃ i, decodeWord w = .ok i ∧ i.opcode.toNat = w.toNat % 256) ∧
    (0x2D < w.toNat % 256 → decodeWord w = .error (.undefinedOpcode (BitVec.ofNat 8 w.toNat)))

/-- O5. The words of the spec's decoding table decode as it says. Rests on 95_test_vectors.md section 2.10 (V235 to
V246; the spec's decisions D8, D9). -/
def Obligations.WorkedWordsDecode : Prop :=
  decodeWord 0x000000000028411C = .ok (.call 10 1 2) ∧
    decodeWord 0xFFFFFFFFFFF0251D = .ok (.push 1 5 (-4)) ∧
    decodeWord 0x00000000001C6011 = .ok (.addi 3 0 7) ∧
    decodeWord 0xFFFFFFFFFFF8032B = .ok (.jne 0 3 (-2)) ∧
    decodeWord 0x0000000000050028 = .ok (.jal 0 40) ∧
    decodeWord 0xFFFFFFFFFFFE0328 = .ok (.jal 3 (-16)) ∧
    decodeWord 0x8000000000006011 = .ok (.addi 3 0 0x200000000000) ∧
    decodeWord 0x7FFFFFFFFFFC6401 = .ok (.andi 3 4 0x1FFFFFFFFFFF) ∧
    decodeWord 0xFFFFFFFFFF8CA400 = .ok (.andr 3 4 5) ∧
    decodeWord 0x00000000007FFF00 = .ok (.andr 31 31 31) ∧
    decodeWord 0x000000000000002E = .error (.undefinedOpcode 0x2E) ∧
    decodeWord 0x1234567890ABCDEF = .error (.undefinedOpcode 0xEF)

/-- O6. An immediate field becomes a 64-bit value by sign extension, or by zero extension where IMM_EXT says so. Rests
on 30_encoding.md section 2 (R65, the spec's decision D6); 00_scope.md section 5.2 (sext_N, zext_N). -/
def Obligations.ImmediateFieldsAreWidened : Prop :=
  ∀ (s : State) (v : ImmS) (u : ImmL),
    (s.cfg.immExt = .sign →
      (s.immS v).toNat = (if v.toNat < 2 ^ 45 then v.toNat else v.toNat + 2 ^ 64 - 2 ^ 46) ∧
      (s.immL u).toNat = (if u.toNat < 2 ^ 50 then u.toNat else u.toNat + 2 ^ 64 - 2 ^ 51)) ∧
    (s.cfg.immExt = .zero → (s.immS v).toNat = v.toNat ∧ (s.immL u).toNat = u.toNat)

/-- O7. Eight bytes decode as the word they hold, in either byte order, and the rest is handed back. Rests on
20_memory.md section 2 (R43, the spec's decision D2); 30_encoding.md section 1 (R60). -/
def Obligations.EightBytesDecodeLikeTheirWord : Prop :=
  ∀ (b₀ b₁ b₂ b₃ b₄ b₅ b₆ b₇ : Byte) (rest : List Byte),
    decodeBytes .little (b₀ :: b₁ :: b₂ :: b₃ :: b₄ :: b₅ :: b₆ :: b₇ :: rest) =
      (decodeWord (b₇ ++ b₆ ++ b₅ ++ b₄ ++ b₃ ++ b₂ ++ b₁ ++ b₀)).map (fun i => (i, rest)) ∧
    decodeBytes .big (b₀ :: b₁ :: b₂ :: b₃ :: b₄ :: b₅ :: b₆ :: b₇ :: rest) =
      (decodeWord (b₀ ++ b₁ ++ b₂ ++ b₃ ++ b₄ ++ b₅ ++ b₆ ++ b₇)).map (fun i => (i, rest)) ∧
    (∀ (o : ByteOrder) (bs : List Byte), bs.length < 8 → decodeBytes o bs = .error (.tooShort bs.length))

/-- O8. A permitted read completes exactly when it lies inside memory, and gives the cell's value; otherwise read and
write trap. Rests on 20_memory.md section 4 (R47, the spec's decision D4); 20_memory.md section 2 (R43, R44). -/
def Obligations.AccessesCompleteExactlyInRange : Prop :=
  ∀ (s : State) (a : Word) (w : Width), Permitted s a w →
    ((∃ v, memRead s a w = .next v) ↔ InRange s a w) ∧
    (InRange s a w → ∃ v, memRead s a w = .next v ∧ v.toNat = cellValue s a.toNat w.bytes) ∧
    (¬ InRange s a w → memRead s a w = rangeTrap s a w ∧ ∀ v, memWrite s a w v = rangeTrap s a w)

/-- O9. A write sets exactly the bytes of its cell, in the byte order, and reads back truncated to the width. Rests on
20_memory.md section 2 (R43, R45, the spec's decisions D2, D4). -/
def Obligations.WrittenCellReadsBack : Prop :=
  ∀ (s : State) (a : Word) (w : Width) (v : Word), Accessible s a w →
    ∃ t, memWrite s a w v = .next t ∧
      (∀ i, i < w.bytes → t.readByte (a.toNat + i) =
        (match s.cfg.byteOrder with
          | .little => v.extractLsb' (8 * i) 8
          | .big => v.extractLsb' (8 * (w.bytes - 1 - i)) 8)) ∧
      SameMemoryOutside s t a.toNat w.bytes ∧ SameRegisters s t ∧ t.pc = s.pc ∧ SameSystem s t ∧
      ∃ u, memRead t a w = .next u ∧ u.toNat = v.toNat % 2 ^ (8 * w.bytes)

/-- O10. Two memories in canonical form that read alike at every address are equal. Rests on 20_memory.md section 1
(R40). -/
def Obligations.EqualReadsMakeEqualMemories : Prop :=
  ∀ m m' : Memory, Memory.wf m = true → Memory.wf m' = true →
    (∀ a, Memory.read m a = Memory.read m' a) → m = m'

/-- O11. Every step from a state with the invariant leads to a state with the invariant. Rests on 10_state.md section 1
(R21); 10_state.md section 4 (R30, R31); 20_memory.md section 1 (R40); 45_pcall.md (R165). -/
def Obligations.StepKeepsTheInvariant : Prop :=
  ∀ s t : State, Inv s → step s = .next t → Inv t

/-- O12. Every start of a run satisfies the invariant and holds the start values of the spec; at reset the zeros are the
model's choice (logs 1, 5). Rests on 10_state.md section 5 (R33, R34, the spec's decision D15); 70_reset_and_hazards.md
sections 1 and 2 (R201; R202 item 5). -/
def Obligations.StartOfRunSatisfiesTheInvariant : Prop :=
  Inv State.reset ∧ (∀ r, State.reset.readReg r = 0) ∧ (∀ a, State.reset.readByte a = 0) ∧
    ∀ (c : Config) (regs : Vector Word 32) (image : Memory),
      let s := State.startOfRun c regs image
      s.readReg 0 = 0 ∧ s.pc = c.entryPc ∧ s.ivr = none ∧ s.paging = none ∧ s.nesting = .notInFault ∧
      (Memory.wf image = true → Memory.below c.memSize image = true → regs[0] = 0 → Inv s)

/-- O13. No step changes an implementation parameter or the fault nesting state. Rests on 10_state.md section 4 (R31,
R32). -/
def Obligations.StepKeepsParametersAndNesting : Prop :=
  ∀ s t : State, step s = .next t → t.cfg = s.cfg ∧ t.nesting = s.nesting

/-- O14. No instruction reads or writes the interrupt vector register or the fault nesting state. Rests on 10_state.md
section 4 (R29, R31); 60_exceptions.md section 2 (R187: "The outcome is the same whatever `ivr` holds"). -/
def Obligations.InstructionsIgnoreVectorRegisterAndNesting : Prop :=
  ∀ (i : Instr) (s : State) (p : Option Word) (n : FaultNesting),
    exec i { s with ivr := p, nesting := n } = mapNext (fun t => { t with ivr := p, nesting := n }) (exec i s)

/-- O15. Where no opcode is given to pcall, no step changes the vector register or the paging state. Rests on
45_pcall.md (R175, the spec's decision D10). -/
def Obligations.WithoutPcallSystemStateIsConstant : Prop :=
  ∀ s t : State, s.cfg.pcallEncoding = none → step s = .next t → t.ivr = s.ivr ∧ t.paging = s.paging

/-- O16. Only loads, stores and the stack instructions read or write memory when they execute. Rests on 20_memory.md
section 5 (R49). -/
def Obligations.OtherInstructionsNeverTouchMemory : Prop :=
  ∀ (i : Instr) (s : State) (m : Memory), accessesMemory i = false →
    exec i { s with mem := m } = mapNext (fun t => { t with mem := m }) (exec i s)

/-- O17. DivisionByZero is raised by the four divide instructions with a zero divisor, and by nothing else. Rests on
60_exceptions.md section 1 (R181, the spec's decision D13); 41_group1_arithmetic.md, Common rules (R110);
60_exceptions.md section 2 (R187, the spec's decision D11). That the number is 0 is the spec's decision D13, its
resolution of conflict C1 (log 18); the terminal trap is its decision D11 (log 17). -/
def Obligations.DivisionByZeroExactlyOnZeroDivisors : Prop :=
  Config.standard.pcallDivZero = 0 ∧
    ∀ (i : Instr) (s : State),
      ((∃ n p, exec i s = .fault (.trap .divisionByZero n p)) ↔ divisor? s i = some 0) ∧
      (divisor? s i = some 0 → exec i s = divisionTrap s)

/-- O18. An instruction that faults has a zero divisor or an access out of range, and the trap names its own pc. Rests
on 60_exceptions.md sections 1 and 2 (R180, R186, R187, R188, R190); 60_exceptions.md section 5. -/
def Obligations.FaultsOfInstructionsAreTheseTwo : Prop :=
  ∀ (i : Instr) (s : State) (f : Fault), exec i s = .fault f →
    (divisor? s i = some 0 ∧ f = .trap .divisionByZero s.cfg.pcallDivZero s.pc) ∨
    (accessesMemory i = true ∧
      ∃ a w, ¬ InRange s a w ∧ f = .trap (.memoryRange a w) s.cfg.pcallMemRange s.pc)

/-- O19. With paging off, no alignment requirement and the prose reading, no instruction is refused. Rests on
30_encoding.md section 4 (R71); 60_exceptions.md section 5. -/
def Obligations.NoInstructionIsRefusedAtTheDefaults : Prop :=
  ∀ (i : Instr) (s : State) (r : Refusal), s.paging = none → s.cfg.alignRequired = false →
    s.cfg.branchReading = .prose → exec i s ≠ .refused r

/-- O20. An instruction that transfers no control leaves the pc at pc + 8. Rests on 10_state.md section 2 (R26, the
spec's decision D26). -/
def Obligations.SequentialInstructionsAdvanceByEight : Prop :=
  ∀ (i : Instr) (s t : State), transfersControl i = false → exec i s = .next t → t.pc = s.pc + 8

/-- O21. Where the bytes at the pc decode to an instruction, a step is that instruction. Rests on
70_reset_and_hazards.md section 6; 30_encoding.md section 1 (R60). -/
def Obligations.StepRunsTheDecodedInstruction : Prop :=
  ∀ (s : State) (i : Instr), s.pc ≠ s.cfg.haltPc → Accessible s s.pc .double →
    decodeBytes s.cfg.byteOrder (s.mem.readBytes s.pc.toNat 8) = .ok (i, []) → step s = exec i s

/-- O22. A step halts at HALT_PC, traps where the fetch is out of range, and traps on an undefined opcode. Rests on
70_reset_and_hazards.md section 3 (R203, the spec's decision D16); 60_exceptions.md section 2 (R190, the spec's decision
D14); 30_encoding.md section 4 (R70, the spec's decision D9). -/
def Obligations.StepStopsBeforeExecuting : Prop :=
  ∀ s : State,
    (s.pc = s.cfg.haltPc → step s = .fault (.halted s.pc)) ∧
    (s.pc ≠ s.cfg.haltPc → Permitted s s.pc .double → ¬ InRange s s.pc .double →
      step s = rangeTrap s s.pc .double) ∧
    (∀ w : Word, s.pc ≠ s.cfg.haltPc → memRead s s.pc .double = .next w → 0x2D < w.toNat % 256 →
      (∀ e, s.cfg.pcallEncoding = some e → e.opcode.toNat ≠ w.toNat % 256) →
      step s = .fault (.trap (.invalidInstruction w) s.cfg.pcallInvalid s.pc))

/-- O23. A word stored at the address of the next instruction is the word the next step runs. Rests on 20_memory.md
section 8 (R55, the spec's decision D17); 70_reset_and_hazards.md section 4 (R204). -/
def Obligations.FetchSeesThePrecedingStore : Prop :=
  ∀ (rd r1 : Reg) (imm : ImmS) (s : State), s.effAddr rd imm = s.pc + 8 → Accessible s (s.pc + 8) .double →
    ∃ t, exec (.std rd r1 imm) s = .next t ∧ t.pc = s.pc + 8 ∧ fetch t = .next (s.readReg r1) ∧
      (t.pc ≠ t.cfg.haltPc → step t = runWord (s.readReg r1) t)

/-- O24. Where the owner gives pcall an opcode, a word with it runs pcall with the number in its field. Rests on
45_pcall.md (R175); 30_encoding.md section 4 (R70). -/
def Obligations.OwnersPcallEncodingIsRun : Prop :=
  ∀ (s : State) (w : Word) (e : PcallEncoding), s.cfg.pcallEncoding = some e → s.pc ≠ s.cfg.haltPc →
    memRead s s.pc .double = .next w → e.opcode.toNat = w.toNat % 256 → 0x2D < w.toNat % 256 →
    step s = pcall (BitVec.ofInt 51 (BitVec.ofNat e.numberWidth (w.toNat / 2 ^ e.numberLo)).toInt) s

/-- O25. andr, xorr, orr and not: the result in rd, and nothing else changed. Formalises R81, R83, R85, R87. -/
def Obligations.LogicRegisterResults : Prop :=
  (DecodesR 0x00 .andr ∧
      ∀ (rd r1 r2 : Reg) (s : State), ∃ t, exec (.andr rd r1 r2) s = .next t ∧
        WritesResult s t rd (s.readReg r1 &&& s.readReg r2)) ∧
    (DecodesR 0x02 .xorr ∧
      ∀ (rd r1 r2 : Reg) (s : State), ∃ t, exec (.xorr rd r1 r2) s = .next t ∧
        WritesResult s t rd (s.readReg r1 ^^^ s.readReg r2)) ∧
    (DecodesR 0x04 .orr ∧
      ∀ (rd r1 r2 : Reg) (s : State), ∃ t, exec (.orr rd r1 r2) s = .next t ∧
        WritesResult s t rd (s.readReg r1 ||| s.readReg r2)) ∧
    (DecodesR 0x06 (fun rd r1 _ => .not rd r1) ∧
      ∀ (rd r1 : Reg) (s : State), ∃ t, exec (.not rd r1) s = .next t ∧
        WritesResult s t rd (BitVec.ofNat 64 (2 ^ 64 - 1 - (s.readReg r1).toNat)))

/-- O26. andi, xori and ori: the result in rd, and nothing else changed. Formalises R82, R84, R86. -/
def Obligations.LogicImmediateResults : Prop :=
  (DecodesS 0x01 .andi ∧
      ∀ (rd r1 : Reg) (imm : ImmS) (s : State), ∃ t, exec (.andi rd r1 imm) s = .next t ∧
        WritesResult s t rd (s.readReg r1 &&& s.immS imm)) ∧
    (DecodesS 0x03 .xori ∧
      ∀ (rd r1 : Reg) (imm : ImmS) (s : State), ∃ t, exec (.xori rd r1 imm) s = .next t ∧
        WritesResult s t rd (s.readReg r1 ^^^ s.immS imm)) ∧
    (DecodesS 0x05 .ori ∧
      ∀ (rd r1 : Reg) (imm : ImmS) (s : State), ∃ t, exec (.ori rd r1 imm) s = .next t ∧
        WritesResult s t rd (s.readReg r1 ||| s.immS imm))

/-- O27. cnt counts the 1 bits of x[r1] below the highest imm bits, in the reading CNT_READING names. Formalises R88. -/
def Obligations.CntCountsBelowTheExcludedBits : Prop :=
  DecodesS 0x07 .cnt ∧
    ∀ (rd r1 : Reg) (imm : ImmS) (s : State),
      let n := (s.immS imm).toNat
      let ones := fun k => ((List.range k).filter fun i => (s.readReg r1).getLsbD i).length
      ∃ t, exec (.cnt rd r1 imm) s = .next t ∧
        (64 ≤ n → WritesResult s t rd 0) ∧
        (n < 64 → s.cfg.cntReading = .prose → WritesResult s t rd (BitVec.ofNat 64 (ones (64 - n)))) ∧
        (n < 64 → s.cfg.cntReading = .pseudocode → WritesResult s t rd (BitVec.ofNat 64 (ones n)))

/-- O28. llsr and llsi multiply by 2^n modulo 2^64, and clear at 64 and above. Formalises R90, R91. -/
def Obligations.LogicalLeftShiftResults : Prop :=
  (DecodesR 0x08 .llsr ∧
      ∀ (rd r1 r2 : Reg) (s : State),
        let n := (s.readReg r2).toNat
        ∃ t, exec (.llsr rd r1 r2) s = .next t ∧ WritesResult s t rd (if 64 ≤ n then 0 else BitVec.ofNat 64 ((s.readReg r1).toNat * 2 ^ n % 2 ^ 64))) ∧
    (DecodesS 0x09 .llsi ∧
      ∀ (rd r1 : Reg) (imm : ImmS) (s : State),
        let n := (s.immS imm).toNat
        ∃ t, exec (.llsi rd r1 imm) s = .next t ∧ WritesResult s t rd (if 64 ≤ n then 0 else BitVec.ofNat 64 ((s.readReg r1).toNat * 2 ^ n % 2 ^ 64)))

/-- O29. lrsr and lrsi divide by 2^n, and clear at 64 and above. Formalises R92, R93. -/
def Obligations.LogicalRightShiftResults : Prop :=
  (DecodesR 0x0A .lrsr ∧
      ∀ (rd r1 r2 : Reg) (s : State),
        let n := (s.readReg r2).toNat
        ∃ t, exec (.lrsr rd r1 r2) s = .next t ∧ WritesResult s t rd (if 64 ≤ n then 0 else BitVec.ofNat 64 ((s.readReg r1).toNat / 2 ^ n))) ∧
    (DecodesS 0x0B .lrsi ∧
      ∀ (rd r1 : Reg) (imm : ImmS) (s : State),
        let n := (s.immS imm).toNat
        ∃ t, exec (.lrsi rd r1 imm) s = .next t ∧ WritesResult s t rd (if 64 ≤ n then 0 else BitVec.ofNat 64 ((s.readReg r1).toNat / 2 ^ n)))

/-- O30. alsr and alsi multiply by 2^n modulo 2^64, and clear at 64 and above. Rests on 40_group0_bitwise.md, Shifts
(R94, R95); 93_implementation_defined.md part 2 (G3). -/
def Obligations.ArithmeticalLeftShiftResults : Prop :=
  (DecodesR 0x0C .alsr ∧
      ∀ (rd r1 r2 : Reg) (s : State),
        let n := (s.readReg r2).toNat
        ∃ t, exec (.alsr rd r1 r2) s = .next t ∧ WritesResult s t rd (if 64 ≤ n then 0 else BitVec.ofNat 64 ((s.readReg r1).toNat * 2 ^ n % 2 ^ 64))) ∧
    (DecodesS 0x0D .alsi ∧
      ∀ (rd r1 : Reg) (imm : ImmS) (s : State),
        let n := (s.immS imm).toNat
        ∃ t, exec (.alsi rd r1 imm) s = .next t ∧ WritesResult s t rd (if 64 ≤ n then 0 else BitVec.ofNat 64 ((s.readReg r1).toNat * 2 ^ n % 2 ^ 64)))

/-- O31. arsr and arsi divide the signed value by 2^n rounding down, and clear at 64 and above. Rests on
40_group0_bitwise.md, Shifts (R96, R97); 93_implementation_defined.md part 2 (G4) and U9. -/
def Obligations.ArithmeticalRightShiftResults : Prop :=
  (DecodesR 0x0E .arsr ∧
      ∀ (rd r1 r2 : Reg) (s : State),
        let n := (s.readReg r2).toNat
        ∃ t, exec (.arsr rd r1 r2) s = .next t ∧ WritesResult s t rd (if 64 ≤ n then 0 else BitVec.ofInt 64 (Int.fdiv (s.readReg r1).toInt (2 ^ n)))) ∧
    (DecodesS 0x0F .arsi ∧
      ∀ (rd r1 : Reg) (imm : ImmS) (s : State),
        let n := (s.immS imm).toNat
        ∃ t, exec (.arsi rd r1 imm) s = .next t ∧ WritesResult s t rd (if 64 ≤ n then 0 else BitVec.ofInt 64 (Int.fdiv (s.readReg r1).toInt (2 ^ n))))

/-- O32. addr, addi, subr and subi: the sum or difference modulo 2^64 in rd, and nothing else changed. Formalises R101,
R102, R103, R104. -/
def Obligations.AddAndSubtractResults : Prop :=
  (DecodesR 0x10 .addr ∧
      ∀ (rd r1 r2 : Reg) (s : State), ∃ t, exec (.addr rd r1 r2) s = .next t ∧
        WritesResult s t rd (BitVec.ofNat 64 (((s.readReg r1).toNat + (s.readReg r2).toNat) % 2 ^ 64))) ∧
    (DecodesS 0x11 .addi ∧
      ∀ (rd r1 : Reg) (imm : ImmS) (s : State), ∃ t, exec (.addi rd r1 imm) s = .next t ∧
        WritesResult s t rd (BitVec.ofNat 64 (((s.readReg r1).toNat + (s.immS imm).toNat) % 2 ^ 64))) ∧
    (DecodesR 0x12 .subr ∧
      ∀ (rd r1 r2 : Reg) (s : State), ∃ t, exec (.subr rd r1 r2) s = .next t ∧
        WritesResult s t rd (BitVec.ofInt 64 ((s.readReg r1).toNat - (s.readReg r2).toNat : Int))) ∧
    (DecodesS 0x13 .subi ∧
      ∀ (rd r1 : Reg) (imm : ImmS) (s : State), ∃ t, exec (.subi rd r1 imm) s = .next t ∧
        WritesResult s t rd (BitVec.ofInt 64 ((s.readReg r1).toNat - (s.immS imm).toNat : Int)))

/-- O33. umulr and umuli: the unsigned product modulo 2^64 in rd, and nothing else changed. Formalises R105, R106. -/
def Obligations.UnsignedMultiplyResults : Prop :=
  (DecodesR 0x14 .umulr ∧
      ∀ (rd r1 r2 : Reg) (s : State), ∃ t, exec (.umulr rd r1 r2) s = .next t ∧
        WritesResult s t rd (BitVec.ofNat 64 ((s.readReg r1).toNat * (s.readReg r2).toNat % 2 ^ 64))) ∧
    (DecodesS 0x15 .umuli ∧
      ∀ (rd r1 : Reg) (imm : ImmS) (s : State), ∃ t, exec (.umuli rd r1 imm) s = .next t ∧
        WritesResult s t rd (BitVec.ofNat 64 ((s.readReg r1).toNat * (s.immS imm).toNat % 2 ^ 64)))

/-- O34. smulr and smuli: the signed product modulo 2^64 in rd, and nothing else changed. Formalises R107, R108. -/
def Obligations.SignedMultiplyResults : Prop :=
  (DecodesR 0x16 .smulr ∧
      ∀ (rd r1 r2 : Reg) (s : State), ∃ t, exec (.smulr rd r1 r2) s = .next t ∧
        WritesResult s t rd (BitVec.ofInt 64 ((s.readReg r1).toInt * (s.readReg r2).toInt % 2 ^ 64))) ∧
    (DecodesS 0x17 .smuli ∧
      ∀ (rd r1 : Reg) (imm : ImmS) (s : State), ∃ t, exec (.smuli rd r1 imm) s = .next t ∧
        WritesResult s t rd (BitVec.ofInt 64 ((s.readReg r1).toInt * (s.immS imm).toInt % 2 ^ 64)))

/-- O35. umulr and smulr compute the same function, and so do umuli and smuli. Rests on 41_group1_arithmetic.md, common
rules (R109). -/
def Obligations.SignedAndUnsignedMultiplyAgree : Prop :=
  ∀ (rd r1 r2 : Reg) (imm : ImmS) (s : State),
    exec (.umulr rd r1 r2) s = exec (.smulr rd r1 r2) s ∧ exec (.umuli rd r1 imm) s = exec (.smuli rd r1 imm) s

/-- O36. udivr and udivi: the floor of the unsigned quotient in rd, or DivisionByZero on a zero divisor. Rests on
41_group1_arithmetic.md, Division (R113, R114); 41_group1_arithmetic.md, Common rules (R110); 60_exceptions.md section 2
(R187, the spec's decision D11). The terminal trap is the spec's decision D11 (log 17), and its number D13 (log 18). -/
def Obligations.UnsignedDivideResults : Prop :=
  (DecodesR 0x18 .udivr ∧
      ∀ (rd r1 r2 : Reg) (s : State),
        (s.readReg r2 = 0 → exec (.udivr rd r1 r2) s = divisionTrap s) ∧
        (s.readReg r2 ≠ 0 → ∃ t, exec (.udivr rd r1 r2) s = .next t ∧
          ∃ q : Word, q.toNat * (s.readReg r2).toNat ≤ (s.readReg r1).toNat ∧
            (s.readReg r1).toNat < (q.toNat + 1) * (s.readReg r2).toNat ∧ WritesResult s t rd q)) ∧
    (DecodesS 0x19 .udivi ∧
      ∀ (rd r1 : Reg) (imm : ImmS) (s : State),
        (s.immS imm = 0 → exec (.udivi rd r1 imm) s = divisionTrap s) ∧
        (s.immS imm ≠ 0 → ∃ t, exec (.udivi rd r1 imm) s = .next t ∧
          ∃ q : Word, q.toNat * (s.immS imm).toNat ≤ (s.readReg r1).toNat ∧
            (s.readReg r1).toNat < (q.toNat + 1) * (s.immS imm).toNat ∧ WritesResult s t rd q))

/-- O37. sdivr and sdivi: the signed quotient rounded toward zero in rd, or DivisionByZero on a zero divisor. Rests on
41_group1_arithmetic.md, Division (R112, the spec's decision D23; R115, R116). -/
def Obligations.SignedDivideResults : Prop :=
  (DecodesR 0x1A .sdivr ∧
      ∀ (rd r1 r2 : Reg) (s : State),
        (s.readReg r2 = 0 → exec (.sdivr rd r1 r2) s = divisionTrap s) ∧
        (s.readReg r2 ≠ 0 → ∃ t, exec (.sdivr rd r1 r2) s = .next t ∧
          ∃ q m : Int, (s.readReg r1).toInt = q * (s.readReg r2).toInt + m ∧ |m| < |(s.readReg r2).toInt| ∧
            0 ≤ m * (s.readReg r1).toInt ∧ WritesResult s t rd (BitVec.ofInt 64 q))) ∧
    (DecodesS 0x1B .sdivi ∧
      ∀ (rd r1 : Reg) (imm : ImmS) (s : State),
        (s.immS imm = 0 → exec (.sdivi rd r1 imm) s = divisionTrap s) ∧
        (s.immS imm ≠ 0 → ∃ t, exec (.sdivi rd r1 imm) s = .next t ∧
          ∃ q m : Int, (s.readReg r1).toInt = q * (s.immS imm).toInt + m ∧ |m| < |(s.immS imm).toInt| ∧
            0 ≤ m * (s.readReg r1).toInt ∧ WritesResult s t rd (BitVec.ofInt 64 q)))

/-- O38. call stores the frame pointer and pc + 8 at sp, raises sp by 16 into both pointers and jumps to x[rd]. Rests on
42_group1_call_stack.md, Instructions (R122); 42_group1_call_stack.md, Common rules (R120, the spec's decision D7);
20_memory.md section 4 (R47, the spec's decision D4). The range traps of a call are the spec's decision D4 (log 10), and
that the target and the new frame pointer are read after the writes before them is its decision D7 (log 13). -/
def Obligations.CallPushesFrameAndReturnAddress : Prop :=
  DecodesR 0x1C .call ∧
    ∀ (rd r1 r2 : Reg) (s : State),
      let sp := s.readReg r1
      (Accessible s sp .double → Accessible s (sp + 8) .double →
        ∃ t, exec (.call rd r1 r2) s = .next t ∧
          (∀ r, t.readReg r =
            if r = r2 ∧ r ≠ 0 then (if r1 = 0 then 0 else sp + 16)
            else if r = r1 ∧ r ≠ 0 then sp + 16 else s.readReg r) ∧
          t.pc = t.readReg rd ∧
          memRead t sp .double = .next (s.readReg r2) ∧ memRead t (sp + 8) .double = .next (s.pc + 8) ∧
          (∀ b, b < sp.toNat ∨ sp.toNat + 8 ≤ b → b < (sp + 8).toNat ∨ (sp + 8).toNat + 8 ≤ b →
            t.readByte b = s.readByte b) ∧
          SameSystem s t) ∧
      (Permitted s sp .double → ¬ InRange s sp .double → exec (.call rd r1 r2) s = rangeTrap s sp .double) ∧
      (Accessible s sp .double → Permitted s (sp + 8) .double → ¬ InRange s (sp + 8) .double →
        exec (.call rd r1 r2) s = rangeTrap s (sp + 8) .double)

/-- O39. push stores x[r1] + imm at x[rd] and raises x[rd] by 8. Rests on 42_group1_call_stack.md, Instructions (R123,
the spec's decision D5); 20_memory.md section 4 (R47, the spec's decision D4). The range trap of a push is the spec's
decision D4 (log 10), and the wrapping of the pushed sum its decision D5 (log 11). -/
def Obligations.PushStoresAndRaisesTheStackPointer : Prop :=
  DecodesS 0x1D .push ∧
    ∀ (rd r1 : Reg) (imm : ImmS) (s : State),
      let sp := s.readReg rd
      (Accessible s sp .double →
        ∃ t, exec (.push rd r1 imm) s = .next t ∧
          memRead t sp .double = .next (s.readReg r1 + s.immS imm) ∧
          OnlyRegister s t rd (sp + 8) ∧ t.pc = s.pc + 8 ∧ SameMemoryOutside s t sp.toNat 8 ∧ SameSystem s t) ∧
      (Permitted s sp .double → ¬ InRange s sp .double → exec (.push rd r1 imm) s = rangeTrap s sp .double)

/-- O40. retn lowers sp by 16, loads the frame pointer from it and the pc from 8 above x[r1] as it then is. Rests on
42_group1_call_stack.md, Instructions (R124); 42_group1_call_stack.md, Common rules (R120, the spec's decision D7);
20_memory.md section 4 (R47, the spec's decision D4). The range traps of a retn are the spec's decision D4 (log 10), and
the forms in which r1 is r2 or r00 follow its decision D7 (log 13). -/
def Obligations.RetnRestoresFrameAndJumpsBack : Prop :=
  DecodesR 0x1E (fun _ r1 r2 => .retn r1 r2) ∧
    ∀ (r1 r2 : Reg) (s : State),
      let sp := if r1 = 0 then 0 else s.readReg r1 - 16
      let v := BitVec.ofNat 64 (cellValue s sp.toNat 8)
      let q := if r2 = r1 ∧ r1 ≠ 0 then v else sp
      (Accessible s sp .double → Accessible s (q + 8) .double →
        ∃ t, exec (.retn r1 r2) s = .next t ∧
          (∀ r, t.readReg r =
            if r = r2 ∧ r ≠ 0 then v else if r = r1 ∧ r ≠ 0 then sp else s.readReg r) ∧
          t.pc = BitVec.ofNat 64 (cellValue s (q + 8).toNat 8) ∧ SameMemory s t ∧ SameSystem s t) ∧
      (Permitted s sp .double → ¬ InRange s sp .double → exec (.retn r1 r2) s = rangeTrap s sp .double) ∧
      (Accessible s sp .double → Permitted s (q + 8) .double → ¬ InRange s (q + 8) .double →
        exec (.retn r1 r2) s = rangeTrap s (q + 8) .double)

/-- O41. pull loads rd from x[r1] - 8 and lowers x[r1] by 8 as the load left it. Rests on 42_group1_call_stack.md,
Instructions (R125); 42_group1_call_stack.md, Common rules (R120, the spec's decision D7); 20_memory.md section 4 (R47,
the spec's decision D4). The range trap of a pull is the spec's decision D4 (log 10), and v - 8 where rd is r1 its
decision D7 (log 13). -/
def Obligations.PullLoadsAndLowersTheStackPointer : Prop :=
  DecodesS 0x1F (fun rd r1 _ => .pull rd r1) ∧
    ∀ (rd r1 : Reg) (s : State),
      let a := s.readReg r1 - 8
      let v := BitVec.ofNat 64 (cellValue s a.toNat 8)
      (Accessible s a .double →
        ∃ t, exec (.pull rd r1) s = .next t ∧
          (∀ r, t.readReg r =
            if r = r1 ∧ r ≠ 0 then (if rd = r1 then v - 8 else a)
            else if r = rd ∧ r ≠ 0 then v else s.readReg r) ∧
          t.pc = s.pc + 8 ∧ SameMemory s t ∧ SameSystem s t) ∧
      (Permitted s a .double → ¬ InRange s a .double → exec (.pull rd r1) s = rangeTrap s a .double)

/-- O42. A retn after a call, with the frame untouched and sp as call left it, restores sp and bp and returns to pc + 8.
Rests on 42_group1_call_stack.md, common rules (R126). -/
def Obligations.CallThenRetnRestoresTheCaller : Prop :=
  ∀ (rd r1 r2 : Reg) (s t u : State), r1 ≠ 0 → r1 ≠ r2 → exec (.call rd r1 r2) s = .next t →
    u.cfg = t.cfg → u.paging = t.paging → u.readReg r1 = t.readReg r1 →
    (∀ i, i < 8 → u.readByte ((s.readReg r1).toNat + i) = t.readByte ((s.readReg r1).toNat + i) ∧
      u.readByte ((s.readReg r1 + 8).toNat + i) = t.readByte ((s.readReg r1 + 8).toNat + i)) →
    ∃ v, exec (.retn r1 r2) u = .next v ∧ v.readReg r1 = s.readReg r1 ∧ v.readReg r2 = s.readReg r2 ∧
      v.pc = s.pc + 8

/-- O43. A pull after a push gives the pushed value back and leaves the stack pointer as before. Rests on
42_group1_call_stack.md, Instructions (R125: "`pull` undoes `push`"); 42_group1_call_stack.md (R121). -/
def Obligations.PushThenPullRestores : Prop :=
  ∀ (rd r1 x : Reg) (imm : ImmS) (s t : State), rd ≠ 0 → x ≠ rd → exec (.push rd r1 imm) s = .next t →
    ∃ u, exec (.pull x rd) t = .next u ∧ u.readReg rd = s.readReg rd ∧
      (x ≠ 0 → u.readReg x = s.readReg r1 + s.immS imm)

/-- O44. ldb, ldh, ldw and ldd: the zero-extended cell at x[r1] + imm in rd, or MemoryRange. Rests on
43_group2_load_store.md, Loads (R131 to R134); 20_memory.md section 4 (R47, the spec's decision D4; R48, the spec's
decision D5). The extent a + n of the range check is the spec's decision D4 (log 10), and the wrapping of the address
its decision D5 (log 11). -/
def Obligations.LoadResults : Prop :=
  (DecodesS 0x20 .ldb ∧
      ∀ (rd r1 : Reg) (imm : ImmS) (s : State),
        let a := s.readReg r1 + s.immS imm
        (Accessible s a .byte → ∃ t, exec (.ldb rd r1 imm) s = .next t ∧
          WritesResult s t rd (BitVec.ofNat 64 (cellValue s a.toNat 1))) ∧
        (Permitted s a .byte → ¬ InRange s a .byte → exec (.ldb rd r1 imm) s = rangeTrap s a .byte)) ∧
    (DecodesS 0x21 .ldh ∧
      ∀ (rd r1 : Reg) (imm : ImmS) (s : State),
        let a := s.readReg r1 + s.immS imm
        (Accessible s a .half → ∃ t, exec (.ldh rd r1 imm) s = .next t ∧
          WritesResult s t rd (BitVec.ofNat 64 (cellValue s a.toNat 2))) ∧
        (Permitted s a .half → ¬ InRange s a .half → exec (.ldh rd r1 imm) s = rangeTrap s a .half)) ∧
    (DecodesS 0x22 .ldw ∧
      ∀ (rd r1 : Reg) (imm : ImmS) (s : State),
        let a := s.readReg r1 + s.immS imm
        (Accessible s a .word → ∃ t, exec (.ldw rd r1 imm) s = .next t ∧
          WritesResult s t rd (BitVec.ofNat 64 (cellValue s a.toNat 4))) ∧
        (Permitted s a .word → ¬ InRange s a .word → exec (.ldw rd r1 imm) s = rangeTrap s a .word)) ∧
    (DecodesS 0x23 .ldd ∧
      ∀ (rd r1 : Reg) (imm : ImmS) (s : State),
        let a := s.readReg r1 + s.immS imm
        (Accessible s a .double → ∃ t, exec (.ldd rd r1 imm) s = .next t ∧
          WritesResult s t rd (BitVec.ofNat 64 (cellValue s a.toNat 8))) ∧
        (Permitted s a .double → ¬ InRange s a .double → exec (.ldd rd r1 imm) s = rangeTrap s a .double))

/-- O45. stb, sth, stw and std: the low bytes of x[r1] at x[rd] + imm, nothing else changed, or MemoryRange. Rests on
43_group2_load_store.md, Stores (R136 to R139); 20_memory.md section 4 (R47, the spec's decision D4; R48, the spec's
decision D5); 90_conflicts.md C8. The extent a + n of the range check is the spec's decision D4 (log 10), the wrapping
of the address its decision D5 (log 11), and that std stores field r1 its resolution of conflict C8 (log 33, DEDUCED). -/
def Obligations.StoreResults : Prop :=
  (DecodesS 0x24 .stb ∧
      ∀ (rd r1 : Reg) (imm : ImmS) (s : State),
        let a := s.readReg rd + s.immS imm
        (Accessible s a .byte → ∃ t, exec (.stb rd r1 imm) s = .next t ∧
          cellValue t a.toNat 1 = (s.readReg r1).toNat % 2 ^ 8 ∧ SameMemoryOutside s t a.toNat 1 ∧
          SameRegisters s t ∧ t.pc = s.pc + 8 ∧ SameSystem s t) ∧
        (Permitted s a .byte → ¬ InRange s a .byte → exec (.stb rd r1 imm) s = rangeTrap s a .byte)) ∧
    (DecodesS 0x25 .sth ∧
      ∀ (rd r1 : Reg) (imm : ImmS) (s : State),
        let a := s.readReg rd + s.immS imm
        (Accessible s a .half → ∃ t, exec (.sth rd r1 imm) s = .next t ∧
          cellValue t a.toNat 2 = (s.readReg r1).toNat % 2 ^ 16 ∧ SameMemoryOutside s t a.toNat 2 ∧
          SameRegisters s t ∧ t.pc = s.pc + 8 ∧ SameSystem s t) ∧
        (Permitted s a .half → ¬ InRange s a .half → exec (.sth rd r1 imm) s = rangeTrap s a .half)) ∧
    (DecodesS 0x26 .stw ∧
      ∀ (rd r1 : Reg) (imm : ImmS) (s : State),
        let a := s.readReg rd + s.immS imm
        (Accessible s a .word → ∃ t, exec (.stw rd r1 imm) s = .next t ∧
          cellValue t a.toNat 4 = (s.readReg r1).toNat % 2 ^ 32 ∧ SameMemoryOutside s t a.toNat 4 ∧
          SameRegisters s t ∧ t.pc = s.pc + 8 ∧ SameSystem s t) ∧
        (Permitted s a .word → ¬ InRange s a .word → exec (.stw rd r1 imm) s = rangeTrap s a .word)) ∧
    (DecodesS 0x27 .std ∧
      ∀ (rd r1 : Reg) (imm : ImmS) (s : State),
        let a := s.readReg rd + s.immS imm
        (Accessible s a .double → ∃ t, exec (.std rd r1 imm) s = .next t ∧
          cellValue t a.toNat 8 = (s.readReg r1).toNat % 2 ^ 64 ∧ SameMemoryOutside s t a.toNat 8 ∧
          SameRegisters s t ∧ t.pc = s.pc + 8 ∧ SameSystem s t) ∧
        (Permitted s a .double → ¬ InRange s a .double → exec (.std rd r1 imm) s = rangeTrap s a .double))

/-- O46. jal writes pc + 8 to its register field and jumps to pc + imm. Rests on 44_group2_jumps.md, Jump and link
(R146); 30_encoding.md section 3 (R69); 90_conflicts.md C9. That the link register is the field r1 of the L type is the
spec's resolution of conflict C9 (R69; log 33, DEDUCED). -/
def Obligations.JalLinksAndJumps : Prop :=
  DecodesL 0x28 .jal ∧
    ∀ (r1 : Reg) (imm : ImmL) (s : State), ∃ t, exec (.jal r1 imm) s = .next t ∧
      OnlyRegister s t r1 (s.pc + 8) ∧ t.pc = s.pc + s.immL imm ∧ SameMemory s t ∧ SameSystem s t

/-- O47. jalr writes pc + 8 to rd and jumps to pc + x[r1] + imm, x[r1] being read after the link is written. Rests on
44_group2_jumps.md, Jump and link (R147); 42_group1_call_stack.md, Common rules (R120, the spec's decision D7). That
x[r1] is read after the link is written is the spec's decision D7 (log 13). -/
def Obligations.JalrLinksAndJumps : Prop :=
  DecodesS 0x29 .jalr ∧
    ∀ (rd r1 : Reg) (imm : ImmS) (s : State), ∃ t, exec (.jalr rd r1 imm) s = .next t ∧
      OnlyRegister s t rd (s.pc + 8) ∧
      t.pc = s.pc + (if r1 = rd ∧ r1 ≠ 0 then s.pc + 8 else s.readReg r1) + s.immS imm ∧
      SameMemory s t ∧ SameSystem s t

/-- O48. je jumps when x[rd] = x[r1] and jne when they differ, by imm instructions; je as BRANCH_READING says.
Formalises R148, R149. -/
def Obligations.EqualityJumpResults : Prop :=
  (DecodesS 0x2A .je ∧
      ∀ (rd r1 : Reg) (imm : ImmS) (s : State), ∃ t, exec (.je rd r1 imm) s = .next t ∧
        (s.cfg.branchReading = .prose →
          JumpsTo s t (if s.readReg rd = s.readReg r1 then s.pc + s.immS imm * 8 else s.pc + 8)) ∧
        (s.cfg.branchReading = .pseudocode →
          JumpsTo s t (if s.readReg rd = s.readReg r1 then s.pc + 8 else s.pc + s.immS imm * 8))) ∧
    (DecodesS 0x2B .jne ∧
      ∀ (rd r1 : Reg) (imm : ImmS) (s : State), ∃ t, exec (.jne rd r1 imm) s = .next t ∧
        JumpsTo s t (if s.readReg rd = s.readReg r1 then s.pc + 8 else s.pc + s.immS imm * 8))

/-- O49. jgu jumps when x[rd] > x[r1] and jleu when x[rd] <= x[r1], both unsigned, by imm instructions; as
BRANCH_READING says. Rests on 44_group2_jumps.md, Conditional jumps (R150, R151, the spec's decision D22). The prose
reading is the spec's decision D22; that jleu is refused in the other reading is the model's choice, R151 saying only
that the text is cut (log 21). -/
def Obligations.UnsignedOrderJumpResults : Prop :=
  (DecodesS 0x2C .jgu ∧
      ∀ (rd r1 : Reg) (imm : ImmS) (s : State), ∃ t, exec (.jgu rd r1 imm) s = .next t ∧
        (s.cfg.branchReading = .prose →
          JumpsTo s t (if (s.readReg r1).toNat < (s.readReg rd).toNat then s.pc + s.immS imm * 8 else s.pc + 8)) ∧
        (s.cfg.branchReading = .pseudocode →
          JumpsTo s t (if (s.readReg rd - s.readReg r1).toNat < 2 ^ 63 then s.pc + s.immS imm * 8 else s.pc + 8))) ∧
    (DecodesS 0x2D .jleu ∧
      ∀ (rd r1 : Reg) (imm : ImmS) (s : State),
        (s.cfg.branchReading = .prose → ∃ t, exec (.jleu rd r1 imm) s = .next t ∧
          JumpsTo s t (if (s.readReg rd).toNat ≤ (s.readReg r1).toNat then s.pc + s.immS imm * 8 else s.pc + 8)) ∧
        (s.cfg.branchReading = .pseudocode → exec (.jleu rd r1 imm) s = .refused .unrecoverableReading))

/-- O50. For any operands exactly one of jgu and jleu goes to the jump target. Rests on 44_group2_jumps.md, Conditional
jumps (R151). -/
def Obligations.ExactlyOneOfJguAndJleuIsTaken : Prop :=
  ∀ (rd r1 : Reg) (imm : ImmS) (s : State), s.cfg.branchReading = .prose → s.pc + s.immS imm * 8 ≠ s.pc + 8 →
    ∃ t u, exec (.jgu rd r1 imm) s = .next t ∧ exec (.jleu rd r1 imm) s = .next u ∧
      ((t.pc = s.pc + s.immS imm * 8 ∧ u.pc = s.pc + 8) ∨ (t.pc = s.pc + 8 ∧ u.pc = s.pc + s.immS imm * 8))

/-- O51. A conditional jump leaves a pc that is a multiple of 8 a multiple of 8. Rests on 10_state.md section 2 (R27);
44_group2_jumps.md, common rules (R145, R152). -/
def Obligations.ConditionalJumpsKeepThePcAligned : Prop :=
  ∀ (rd r1 : Reg) (imm : ImmS) (s t : State) (i : Instr),
    i = .je rd r1 imm ∨ i = .jne rd r1 imm ∨ i = .jgu rd r1 imm ∨ i = .jleu rd r1 imm →
    s.pc.toNat % 8 = 0 → exec i s = .next t → t.pc.toNat % 8 = 0

/-- O52. pcall -1 with r29:r28 = 0:0 reports IV_MODE in r31, IV_COUNT in r30 and IV_R29 in r29, each where it is
defined. Rests on 45_pcall.md (R164, the spec's decision D20; R171, R172). -/
def Obligations.InterruptVectorCheckReports : Prop :=
  ∀ s : State, s.readReg 29 = 0 → s.readReg 28 = 0 →
    ∃ t, processorInterface s = .next t ∧ t.pc = s.pc + 8 ∧ SameMemory s t ∧ SameSystem s t ∧
      ∀ r, t.readReg r =
        if r = 31 then (match s.cfg.ivMode with | .impossible => 0 | .fixedAddress => 1 | .anywhere => 2)
        else if r = 30 ∧ s.cfg.ivMode ≠ .impossible then s.cfg.ivCount
        else if r = 29 ∧ s.cfg.ivMode = .fixedAddress then s.cfg.ivR29 else s.readReg r

/-- O53. pcall -1 with r29:r28 = 0:1 sets the interrupt vector register to r31 where IV_MODE is 2, and ignores it
otherwise. Rests on 45_pcall.md, the processor interface (R165; R171, the spec's decision D25). Going on at pc + 8 is
the spec's decision D25 (log 25). -/
def Obligations.InterruptVectorEnableSetsTheRegister : Prop :=
  ∀ s : State, s.readReg 29 = 0 → s.readReg 28 = 1 →
    ∃ t, processorInterface s = .next t ∧ t.pc = s.pc + 8 ∧ SameRegisters s t ∧ SameMemory s t ∧
      t.cfg = s.cfg ∧ t.paging = s.paging ∧ t.nesting = s.nesting ∧
      t.ivr = (if s.cfg.ivMode = .anywhere then some (s.readReg 31) else s.ivr)

/-- O54. pcall -1 with r29 = 1 reports the page levels and page size, and enables paging where there is any. Rests on
45_pcall.md (R166, R167, the spec's decisions D20, D28). -/
def Obligations.PagingCheckAndEnable : Prop :=
  ∀ s : State, s.readReg 29 = 1 →
    (s.readReg 28 = 0 → ∃ t, processorInterface s = .next t ∧ t.pc = s.pc + 8 ∧ SameMemory s t ∧ SameSystem s t ∧
      ∀ r, t.readReg r = if r = 31 then s.cfg.pageLevels
        else if r = 30 ∧ s.cfg.pageLevels ≠ 0 then s.cfg.pageSize else s.readReg r) ∧
    (s.readReg 28 = 1 → ∃ t, processorInterface s = .next t ∧ t.pc = s.pc + 8 ∧ SameRegisters s t ∧
      SameMemory s t ∧ t.cfg = s.cfg ∧ t.ivr = s.ivr ∧ t.nesting = s.nesting ∧
      t.paging = (if s.cfg.pageLevels = 0 then s.paging else some (s.readReg 30)))

/-- O55. The information check reports MODEL_INFO, a check of an absent group clears r31, and undefined pairs are
refused. Rests on 45_pcall.md (R163, R168, R169, R170, R174, the spec's decisions D19, D20). -/
def Obligations.OtherProcessorFunctions : Prop :=
  ∀ s : State,
    (s.readReg 29 = 2 → s.readReg 28 = 0 →
      ∃ t, processorInterface s = .next t ∧ WritesResult s t 31 (if s.cfg.modelInfo = true then 1 else 0)) ∧
    (3 ≤ (s.readReg 29).toNat → s.readReg 28 = 0 →
      ∃ t, processorInterface s = .next t ∧ WritesResult s t 31 0) ∧
    (2 ≤ (s.readReg 28).toNat ∨ (s.readReg 28 = 1 ∧ 2 ≤ (s.readReg 29).toNat) →
      processorInterface s = .refused (.undefinedFunction (s.readReg 29) (s.readReg 28)))

/-- O56. A pcall -1 that completes changes no register but r29, r30 and r31, and no memory. Rests on 45_pcall.md (R171,
R172, the spec's decision D25). -/
def Obligations.ProcessorInterfacePreserves : Prop :=
  ∀ s t : State, processorInterface s = .next t →
    (∀ r, r ≠ 29 → r ≠ 30 → r ≠ 31 → t.readReg r = s.readReg r) ∧ SameMemory s t ∧ t.cfg = s.cfg ∧
      t.nesting = s.nesting ∧ t.pc = s.pc + 8

/-- O57. pcall -1 is the processor interface, and any other pcall n raises interrupt n. Rests on 45_pcall.md (R160,
R162, R173, the spec's decision D29); 60_exceptions.md section 2 (R187). The cause programCall n is the model's choice
(log 37). -/
def Obligations.ProgramCallsRaiseTheirNumber : Prop :=
  ∀ (n : InterruptNumber) (s : State),
    (n.toInt = -1 → pcall n s = processorInterface s) ∧
    (n.toInt ≠ -1 → pcall n s = .fault (.trap (.programCall n) n s.pc))

/-- O58. Once paging is enabled every memory access is refused, the fetch included. Rests on 45_pcall.md (R167, the
spec's decision D28); 20_memory.md section 7 (R52). -/
def Obligations.PagingEnabledRefusesEveryAccess : Prop :=
  ∀ (s : State) (root : Word), s.paging = some root →
    (∀ a w, memRead s a w = .refused (.pagedAccess a) ∧ ∀ v, memWrite s a w v = .refused (.pagedAccess a)) ∧
    (s.pc ≠ s.cfg.haltPc → step s = .refused (.pagedAccess s.pc))

/-- O59. With paging off, a misaligned access is refused exactly where ALIGN_REQUIRED is set, the fetch included. Rests
on 20_memory.md section 3 (R46, the spec's decision D3); 20_memory.md section 4 (R47, the spec's decision D4). -/
def Obligations.RequiredAlignmentRefusesMisalignedAccesses : Prop :=
  ∀ (s : State) (a : Word) (w : Width), s.paging = none →
    (s.cfg.alignRequired = true → a.toNat % w.bytes ≠ 0 →
      memRead s a w = .refused (.misaligned a w) ∧ ∀ v, memWrite s a w v = .refused (.misaligned a w)) ∧
    (s.cfg.alignRequired = true → s.pc ≠ s.cfg.haltPc → s.pc.toNat % 8 ≠ 0 →
      step s = .refused (.misaligned s.pc .double)) ∧
    (s.cfg.alignRequired = false →
      (InRange s a w →
        memRead s a w = .next (s.cell a w) ∧ ∀ v, memWrite s a w v = .next (s.setCell a w v)) ∧
      (¬ InRange s a w → memRead s a w = rangeTrap s a w ∧ ∀ v, memWrite s a w v = rangeTrap s a w))

/-- O60. A word placed where the next instruction is fetched is the word the next step runs. Rests on 20_memory.md
section 1 (R41); 30_encoding.md section 1 (R60, R64); 70_reset_and_hazards.md section 6. -/
def Obligations.PlacedWordIsRunNext : Prop :=
  ∀ (s : State) (w : Word), s.pc ≠ s.cfg.haltPc → Accessible s s.pc .double →
    let t := s.withFetchWord 64 w.toNat
    SameRegisters s t ∧ t.pc = s.pc ∧ SameSystem s t ∧ SameMemoryOutside s t s.pc.toNat 8 ∧
      fetch t = .next w ∧ step t = runWord w t
end

