-- ==== Sys2Proof/Laws/Bytes.lean ====
section
/-! SUPPORT. The bytes of a word: lengths, single bytes, and joining what was split. -/

namespace Sys2Proof

@[simp] theorem splitLittle_length (n : Nat) (v : Word) : (splitLittle n v).length = n := by
  induction n generalizing v with
  | zero => rfl
  | succ n ih => simp [splitLittle, ih]

@[simp] theorem splitBytes_length (o : ByteOrder) (n : Nat) (v : Word) : (splitBytes o n v).length = n := by
  cases o <;> simp [splitBytes]

/-- Byte `i` of a word, the least significant being byte 0. -/
theorem splitLittle_getElem (n : Nat) (v : Word) (i : Nat) (h : i < (splitLittle n v).length) :
    (splitLittle n v)[i] = v.extractLsb' (8 * i) 8 := by
  induction n generalizing v i with
  | zero => simp at h
  | succ n ih =>
    cases i with
    | zero =>
      apply BitVec.eq_of_toNat_eq
      simp [splitLittle]
    | succ i =>
      simp only [splitLittle, List.getElem_cons_succ]
      rw [ih]
      apply BitVec.eq_of_toNat_eq
      simp only [BitVec.extractLsb'_toNat, BitVec.toNat_ushiftRight, ← Nat.shiftRight_add]
      rw [show 8 + 8 * i = 8 * (i + 1) by omega]

/-- A run of bytes joined is below 256 to its length. -/
theorem joinLittle_lt (bs : List Byte) : joinLittle bs < 256 ^ bs.length := by
  induction bs with
  | nil => simp [joinLittle]
  | cons b bs ih =>
    have hb := b.isLt
    simp only [joinLittle, List.length_cons, Nat.pow_succ]
    omega

/-- Splitting and joining keeps the low bytes. -/
theorem joinLittle_splitLittle (n : Nat) (v : Word) : joinLittle (splitLittle n v) = v.toNat % 256 ^ n := by
  induction n generalizing v with
  | zero => simp [splitLittle, joinLittle, Nat.mod_one]
  | succ n ih =>
    simp only [splitLittle, joinLittle, ih, BitVec.toNat_setWidth, BitVec.toNat_ushiftRight, Nat.shiftRight_eq_div_pow]
    rw [show 256 ^ (n + 1) = 256 * 256 ^ n from Nat.pow_succ', Nat.mod_mul]

/-- Joining the bytes a value was split into gives its low bytes, in either order (20_memory.md R43). -/
theorem joinBytes_splitBytes (o : ByteOrder) (n : Nat) (v : Word) :
    joinBytes o (splitBytes o n v) = BitVec.ofNat 64 (v.toNat % 256 ^ n) := by
  cases o <;> simp [joinBytes, splitBytes, joinLittle_splitLittle]

/-- The eight bytes of a word join to the word. -/
theorem joinBytes_splitBytes_eight (o : ByteOrder) (v : Word) : joinBytes o (splitBytes o 8 v) = v := by
  rw [joinBytes_splitBytes]
  apply BitVec.eq_of_toNat_eq
  have := v.isLt
  simp only [BitVec.toNat_ofNat]
  omega

end Sys2Proof
end

