-- ==== Sys2Proof/Laws/Memory.lean ====
section
/-! SUPPORT. Memory: reading after writing, and the canonical form, which every operation that makes a memory keeps. -/

namespace Sys2Proof.Machine

/-! ### Reading after writing -/

theorem Memory.read_erase (m : Memory) (a x : Nat) :
    Memory.read (m.erase a) x = if x = a then unwrittenByte else Memory.read m x := by
  induction m with
  | nil => simp [Memory.erase, Memory.read]
  | cons c m ih =>
    obtain ⟨k, v⟩ := c
    simp only [Memory.erase] at ih ⊢
    by_cases hk : k = a
    · subst hk
      by_cases hx : x = k
      · subst hx; simp [ih]
      · simp [ih, hx, Memory.read, Ne.symm hx]
    · by_cases hx : k = x
      · subst hx; simp [hk, Memory.read]
      · simp [hk, hx, Memory.read, ih]

theorem Memory.read_insert (m : Memory) (a x : Nat) (b : Byte) :
    Memory.read (m.insert a b) x = if x = a then b else Memory.read m x := by
  induction m with
  | nil => simp [Memory.insert, Memory.read, eq_comm]
  | cons c m ih =>
    obtain ⟨k, v⟩ := c
    simp only [Memory.insert]
    by_cases h1 : a < k
    · simp [h1, Memory.read, eq_comm]
    · by_cases h2 : a = k
      · subst h2; simp only [lt_irrefl, if_false, if_true, Memory.read]; simp only [eq_comm (a := x)]; split <;> rfl
      · simp only [h1, h2, if_false, Memory.read, ih]
        by_cases hx : k = x
        · subst hx; simp [Ne.symm h2]
        · simp [hx]

/-- A read after a write gives the byte written at its address and leaves every other address alone. -/
theorem Memory.read_write (m : Memory) (a x : Nat) (b : Byte) :
    Memory.read (m.write a b) x = if x = a then b else Memory.read m x := by
  unfold Memory.write
  split
  · rename_i h; rw [Memory.read_erase, h]
  · exact Memory.read_insert m a x b

/-- Bytes outside a run that was written read as before. -/
theorem Memory.read_writeBytes_outside (bs : List Byte) (m : Memory) (a x : Nat) (h : x < a ∨ a + bs.length ≤ x) :
    Memory.read (m.writeBytes a bs) x = Memory.read m x := by
  induction bs generalizing m a with
  | nil => rfl
  | cons b bs ih =>
    simp only [List.length_cons] at h
    rw [Memory.writeBytes, ih _ _ (by omega), Memory.read_write, if_neg (by omega)]

/-- Bytes inside a run that was written read as the run says. -/
theorem Memory.read_writeBytes_inside (bs : List Byte) (m : Memory) (a i : Nat) (h : i < bs.length) :
    Memory.read (m.writeBytes a bs) (a + i) = bs[i] := by
  induction bs generalizing m a i with
  | nil => simp at h
  | cons b bs ih =>
    rw [Memory.writeBytes]
    cases i with
    | zero =>
      rw [Memory.read_writeBytes_outside _ _ _ _ (by omega), Memory.read_write]
      simp
    | succ i =>
      have := ih (m.write a b) (a + 1) i (by simpa using h)
      rw [show a + (i + 1) = a + 1 + i by omega, this]
      simp

@[simp] theorem Memory.readBytes_length (m : Memory) (a n : Nat) : (m.readBytes a n).length = n := by
  induction n generalizing a with
  | zero => rfl
  | succ n ih => simp [Memory.readBytes, ih]

theorem Memory.readBytes_getElem (m : Memory) (a n i : Nat) (h : i < (m.readBytes a n).length) :
    (m.readBytes a n)[i] = Memory.read m (a + i) := by
  induction n generalizing a i with
  | zero => simp [Memory.readBytes] at h
  | succ n ih =>
    cases i with
    | zero => rfl
    | succ i =>
      simp only [Memory.readBytes, List.getElem_cons_succ]
      rw [ih, show a + 1 + i = a + (i + 1) by omega]

/-- A run that was written reads back whole. -/
theorem Memory.readBytes_writeBytes (m : Memory) (a : Nat) (bs : List Byte) :
    (m.writeBytes a bs).readBytes a bs.length = bs := by
  apply List.ext_getElem (by simp)
  intro i h1 h2
  rw [Memory.readBytes_getElem, Memory.read_writeBytes_inside _ _ _ _ h2]

/-- Runs of equal bytes read alike. -/
theorem Memory.readBytes_congr (m m' : Memory) (a n : Nat)
    (h : ∀ i, i < n → Memory.read m (a + i) = Memory.read m' (a + i)) : m.readBytes a n = m'.readBytes a n := by
  apply List.ext_getElem (by simp)
  intro i h1 h2
  rw [Memory.readBytes_getElem, Memory.readBytes_getElem]
  exact h i (by simpa using h1)

/-! ### The canonical form -/

theorem Memory.headAbove_iff (a : Nat) (m : Memory) (hw : Memory.wf m = true) :
    Memory.headAbove a m = true ↔ ∀ c ∈ m, a < c.1 := by
  induction m generalizing a with
  | nil => simp [Memory.headAbove]
  | cons c m ih =>
    obtain ⟨k, v⟩ := c
    simp only [Memory.wf, Bool.and_eq_true] at hw
    have hk := (ih k hw.2).mp hw.1.2
    simp only [Memory.headAbove, decide_eq_true_eq, List.mem_cons, forall_eq_or_imp]
    exact ⟨fun h => ⟨h, fun c hc => lt_trans h (hk c hc)⟩, fun h => h.1⟩

theorem Memory.wf_cons (k : Nat) (v : Byte) (m : Memory) :
    Memory.wf ((k, v) :: m) = true ↔ v ≠ unwrittenByte ∧ (∀ c ∈ m, k < c.1) ∧ Memory.wf m = true := by
  simp only [Memory.wf, Bool.and_eq_true, bne_iff_ne, ne_eq]
  constructor
  · rintro ⟨⟨h1, h2⟩, h3⟩; exact ⟨h1, (Memory.headAbove_iff k m h3).mp h2, h3⟩
  · rintro ⟨h1, h2, h3⟩; exact ⟨⟨h1, (Memory.headAbove_iff k m h3).mpr h2⟩, h3⟩

theorem Memory.wf_erase (m : Memory) (a : Nat) (hw : Memory.wf m = true) : Memory.wf (m.erase a) = true := by
  induction m with
  | nil => rfl
  | cons c m ih =>
    obtain ⟨k, v⟩ := c
    obtain ⟨h1, h2, h3⟩ := (Memory.wf_cons k v m).mp hw
    simp only [Memory.erase] at ih ⊢
    by_cases hk : k = a
    · simpa [hk] using ih h3
    · simp only [bne_iff_ne, ne_eq, hk, not_false_eq_true, List.filter_cons_of_pos]
      exact (Memory.wf_cons _ _ _).mpr ⟨h1, fun c hc => h2 c (List.mem_of_mem_filter hc), ih h3⟩

theorem Memory.mem_insert (m : Memory) (a : Nat) (b : Byte) (c : Host.Cell) (h : c ∈ m.insert a b) : c = (a, b) ∨ c ∈ m := by
  induction m with
  | nil => simpa [Memory.insert] using h
  | cons d m ih =>
    obtain ⟨k, v⟩ := d
    simp only [Memory.insert] at h
    split at h
    · simpa using h
    · split at h
      · rcases List.mem_cons.mp h with h | h
        · exact .inl h
        · exact .inr (List.mem_cons_of_mem _ h)
      · rcases List.mem_cons.mp h with h | h
        · exact .inr (h ▸ List.mem_cons_self)
        · exact (ih h).imp_right (List.mem_cons_of_mem _)

theorem Memory.wf_insert (m : Memory) (a : Nat) (b : Byte) (hb : b ≠ unwrittenByte) (hw : Memory.wf m = true) :
    Memory.wf (m.insert a b) = true := by
  induction m with
  | nil => simp [Memory.insert, Memory.wf, Memory.headAbove, hb]
  | cons c m ih =>
    obtain ⟨k, v⟩ := c
    obtain ⟨h1, h2, h3⟩ := (Memory.wf_cons k v m).mp hw
    simp only [Memory.insert]
    split
    · rename_i h
      refine (Memory.wf_cons _ _ _).mpr ⟨hb, ?_, hw⟩
      intro c hc
      rcases List.mem_cons.mp hc with rfl | hc
      · exact h
      · exact lt_trans h (h2 c hc)
    · split
      · rename_i h; subst h; exact (Memory.wf_cons _ _ _).mpr ⟨hb, h2, h3⟩
      · refine (Memory.wf_cons _ _ _).mpr ⟨h1, ?_, ih h3⟩
        intro c hc
        rcases Memory.mem_insert m a b c hc with rfl | hc
        · show k < a; omega
        · exact h2 c hc

/-- A write keeps the canonical form. -/
theorem Memory.wf_write (m : Memory) (a : Nat) (b : Byte) (hw : Memory.wf m = true) : Memory.wf (m.write a b) = true := by
  unfold Memory.write
  split
  · exact Memory.wf_erase m a hw
  · exact Memory.wf_insert m a b ‹_› hw

/-- Writing a run of bytes keeps the canonical form. -/
theorem Memory.wf_writeBytes (bs : List Byte) (m : Memory) (a : Nat) (hw : Memory.wf m = true) :
    Memory.wf (m.writeBytes a bs) = true := by
  induction bs generalizing m a with
  | nil => exact hw
  | cons b bs ih => exact ih _ _ (Memory.wf_write m a b hw)

/-! ### The bound on listed addresses -/

theorem Memory.below_iff (n : Nat) (m : Memory) : Memory.below n m = true ↔ ∀ c ∈ m, c.1 < n := by
  simp [Memory.below]

/-- A write below a bound keeps every listed address below it. -/
theorem Memory.below_write (n : Nat) (m : Memory) (a : Nat) (b : Byte) (ha : a < n) (h : Memory.below n m = true) :
    Memory.below n (m.write a b) = true := by
  rw [Memory.below_iff] at h ⊢
  intro c hc
  unfold Memory.write at hc
  split at hc
  · exact h c (List.mem_of_mem_filter hc)
  · rcases Memory.mem_insert m a b c hc with rfl | hc
    · exact ha
    · exact h c hc

/-- Writing a run of bytes below a bound keeps every listed address below it. -/
theorem Memory.below_writeBytes (n : Nat) (bs : List Byte) (m : Memory) (a : Nat) (ha : a + bs.length ≤ n)
    (h : Memory.below n m = true) : Memory.below n (m.writeBytes a bs) = true := by
  induction bs generalizing m a with
  | nil => exact h
  | cons b bs ih =>
    simp only [List.length_cons] at ha
    exact ih _ _ (by omega) (Memory.below_write n m a b (by omega) h)

end Sys2Proof.Machine
end

