-- ==== Sys2Proof/Laws/State.lean ====
section
/-! SUPPORT. One lemma per field per update of the state, and reading a register after each update. -/

namespace Sys2Proof.Machine

variable (s : State) (r q : Reg) (v : Word)

/-! ### `setPc` and `advance` -/

@[simp] theorem State.setPc_cfg : (s.setPc v).cfg = s.cfg := rfl
@[simp] theorem State.setPc_regs : (s.setPc v).regs = s.regs := rfl
@[simp] theorem State.setPc_pc : (s.setPc v).pc = v := rfl
@[simp] theorem State.setPc_mem : (s.setPc v).mem = s.mem := rfl
@[simp] theorem State.setPc_ivr : (s.setPc v).ivr = s.ivr := rfl
@[simp] theorem State.setPc_paging : (s.setPc v).paging = s.paging := rfl
@[simp] theorem State.setPc_nesting : (s.setPc v).nesting = s.nesting := rfl
@[simp] theorem State.setPc_readReg : (s.setPc v).readReg q = s.readReg q := rfl
@[simp] theorem State.setPc_readByte (a : Nat) : (s.setPc v).readByte a = s.readByte a := rfl

@[simp] theorem State.advance_cfg : s.advance.cfg = s.cfg := rfl
@[simp] theorem State.advance_regs : s.advance.regs = s.regs := rfl
@[simp] theorem State.advance_pc : s.advance.pc = s.pc + 8 := rfl
@[simp] theorem State.advance_mem : s.advance.mem = s.mem := rfl
@[simp] theorem State.advance_ivr : s.advance.ivr = s.ivr := rfl
@[simp] theorem State.advance_paging : s.advance.paging = s.paging := rfl
@[simp] theorem State.advance_nesting : s.advance.nesting = s.nesting := rfl
@[simp] theorem State.advance_readReg : s.advance.readReg q = s.readReg q := rfl
@[simp] theorem State.advance_readByte (a : Nat) : s.advance.readByte a = s.readByte a := rfl

/-! ### `writeReg` -/

@[simp] theorem State.writeReg_cfg : (s.writeReg r v).cfg = s.cfg := by
  unfold State.writeReg; split <;> rfl
@[simp] theorem State.writeReg_pc : (s.writeReg r v).pc = s.pc := by
  unfold State.writeReg; split <;> rfl
@[simp] theorem State.writeReg_mem : (s.writeReg r v).mem = s.mem := by
  unfold State.writeReg; split <;> rfl
@[simp] theorem State.writeReg_ivr : (s.writeReg r v).ivr = s.ivr := by
  unfold State.writeReg; split <;> rfl
@[simp] theorem State.writeReg_paging : (s.writeReg r v).paging = s.paging := by
  unfold State.writeReg; split <;> rfl
@[simp] theorem State.writeReg_nesting : (s.writeReg r v).nesting = s.nesting := by
  unfold State.writeReg; split <;> rfl
@[simp] theorem State.writeReg_nextPc : (s.writeReg r v).nextPc = s.nextPc := by
  simp [State.nextPc]
@[simp] theorem State.writeReg_readByte (a : Nat) : (s.writeReg r v).readByte a = s.readByte a := by
  simp [State.readByte]

/-- `r00` reads as 0 in every state (10_state.md R21). -/
@[simp] theorem State.readReg_zero : s.readReg 0 = 0 := rfl

/-- Everything reading a register after a write can give: the value written, or what was there, `r00` never changing. -/
theorem State.readReg_writeReg :
    (s.writeReg r v).readReg q = if q = r ∧ q ≠ 0 then v else s.readReg q := by
  unfold State.readReg State.writeReg
  by_cases hq : q = 0
  · simp [hq]
  · by_cases hr : r = 0
    · have h : q ≠ r := fun e => hq (e.trans hr)
      simp [hq, hr]
    · have h : r.val = q.val ↔ q = r := ⟨fun e => Fin.ext e.symm, fun e => congrArg Fin.val e.symm⟩
      simp [hq, hr, Vector.getElem_set, h]

/-- The stored `r00` is never written. -/
@[simp] theorem State.writeReg_regs_zero : (s.writeReg r v).regs[0] = s.regs[0] := by
  unfold State.writeReg
  split
  · rfl
  · have h : r.val ≠ 0 := fun e => absurd (Fin.ext e) ‹_›
    simp [h]

/-! ### `setCell` -/

variable (a : Word) (w : Width)

@[simp] theorem State.setCell_cfg : (s.setCell a w v).cfg = s.cfg := rfl
@[simp] theorem State.setCell_regs : (s.setCell a w v).regs = s.regs := rfl
@[simp] theorem State.setCell_pc : (s.setCell a w v).pc = s.pc := rfl
@[simp] theorem State.setCell_ivr : (s.setCell a w v).ivr = s.ivr := rfl
@[simp] theorem State.setCell_paging : (s.setCell a w v).paging = s.paging := rfl
@[simp] theorem State.setCell_nesting : (s.setCell a w v).nesting = s.nesting := rfl
@[simp] theorem State.setCell_readReg : (s.setCell a w v).readReg q = s.readReg q := rfl
@[simp] theorem State.setCell_nextPc : (s.setCell a w v).nextPc = s.nextPc := rfl

/-! ### Operands read the registers, the parameters and the pc alone -/

@[simp] theorem State.writeReg_immS (imm : ImmS) : (s.writeReg r v).immS imm = s.immS imm := by
  simp [State.immS]
@[simp] theorem State.writeReg_immL (imm : ImmL) : (s.writeReg r v).immL imm = s.immL imm := by
  simp [State.immL]
@[simp] theorem State.setCell_immS (imm : ImmS) : (s.setCell a w v).immS imm = s.immS imm := rfl
@[simp] theorem State.setCell_effAddr (imm : ImmS) : (s.setCell a w v).effAddr r imm = s.effAddr r imm := rfl

end Sys2Proof.Machine
end

