-- ==== Sys2Proof/Laws/Ops.lean ====
section
/-! SUPPORT. What each shared operation can do, said once. -/

namespace Sys2Proof.Machine

/-! ### `andThen` -/

@[simp] theorem andThen_next {α β : Type} (v : α) (f : α → Result β) : andThen (.next v) f = f v := rfl
@[simp] theorem andThen_fault {α β : Type} (r : Fault) (f : α → Result β) : andThen (.fault r) f = .fault r := rfl
@[simp] theorem andThen_refused {α β : Type} (r : Refusal) (f : α → Result β) : andThen (.refused r) f = .refused r := rfl

/-- An `andThen` that answers a next value: both its parts did. -/
theorem andThen_eq_next {α β : Type} {x : Result α} {f : α → Result β} {w : β} (h : andThen x f = .next w) :
    ∃ v, x = .next v ∧ f v = .next w := by
  cases x with
  | next v => exact ⟨v, rfl, h⟩
  | fault r => simp at h
  | refused r => simp at h

/-- An `andThen` that faults: its first part did, or its second. -/
theorem andThen_eq_fault {α β : Type} {x : Result α} {f : α → Result β} {r : Fault} (h : andThen x f = .fault r) :
    x = .fault r ∨ ∃ v, x = .next v ∧ f v = .fault r := by
  cases x with
  | next v => exact .inr ⟨v, rfl, h⟩
  | fault q => simp only [andThen_fault, Host.Outcome.fault.injEq] at h; exact .inl (h ▸ rfl)
  | refused q => simp at h

/-- An `andThen` that is refused: its first part was, or its second. -/
theorem andThen_eq_refused {α β : Type} {x : Result α} {f : α → Result β} {r : Refusal} (h : andThen x f = .refused r) :
    x = .refused r ∨ ∃ v, x = .next v ∧ f v = .refused r := by
  cases x with
  | next v => exact .inr ⟨v, rfl, h⟩
  | fault q => simp at h
  | refused q => simp only [andThen_refused, Host.Outcome.refused.injEq] at h; exact .inl (h ▸ rfl)

/-! ### `checkAccess`, `memRead`, `memWrite`, `fetch` -/

/-- Everything a check of an access can answer (20_memory.md R46, R47; 45_pcall.md R167). -/
theorem checkAccess_cases (s : State) (a : Word) (w : Width) :
    (Accessible s a w ∧ checkAccess s a w = .next ()) ∨
    (Permitted s a w ∧ ¬ InRange s a w ∧ checkAccess s a w = rangeTrap s a w) ∨
    (¬ Permitted s a w ∧ ∃ r, checkAccess s a w = .refused r) := by
  unfold checkAccess Accessible Permitted InRange rangeTrap raise Cause.number
  cases hp : s.paging <;> cases ha : s.cfg.alignRequired <;> by_cases hm : a.toNat % w.bytes = 0 <;>
    by_cases hr : a.toNat + w.bytes ≤ s.cfg.memSize <;> simp [hm, hr]

theorem checkAccess_of_accessible {s : State} {a : Word} {w : Width} (h : Accessible s a w) :
    checkAccess s a w = .next () := by
  rcases checkAccess_cases s a w with ⟨_, h'⟩ | ⟨_, h', _⟩ | ⟨h', _⟩
  · exact h'
  · exact absurd h.2 h'
  · exact absurd h.1 h'

theorem checkAccess_of_outOfRange {s : State} {a : Word} {w : Width} (hp : Permitted s a w) (hr : ¬ InRange s a w) :
    checkAccess s a w = rangeTrap s a w := by
  rcases checkAccess_cases s a w with ⟨h', _⟩ | ⟨_, _, h'⟩ | ⟨h', _⟩
  · exact absurd h'.2 hr
  · exact h'
  · exact absurd hp h'

theorem memRead_of_accessible {s : State} {a : Word} {w : Width} (h : Accessible s a w) :
    memRead s a w = .next (s.cell a w) := by
  simp [memRead, checkAccess_of_accessible h]

theorem memRead_of_outOfRange {s : State} {a : Word} {w : Width} (hp : Permitted s a w) (hr : ¬ InRange s a w) :
    memRead s a w = .fault (.trap (.memoryRange a w) s.cfg.pcallMemRange s.pc) := by
  simp [memRead, checkAccess_of_outOfRange hp hr, rangeTrap]

theorem memWrite_of_accessible {s : State} {a : Word} {w : Width} {v : Word} (h : Accessible s a w) :
    memWrite s a w v = .next (s.setCell a w v) := by
  simp [memWrite, checkAccess_of_accessible h]

theorem memWrite_of_outOfRange {s : State} {a : Word} {w : Width} {v : Word} (hp : Permitted s a w) (hr : ¬ InRange s a w) :
    memWrite s a w v = .fault (.trap (.memoryRange a w) s.cfg.pcallMemRange s.pc) := by
  simp [memWrite, checkAccess_of_outOfRange hp hr, rangeTrap]

/-- If a read answers a value, the access was accessible and the value is the cell's. -/
theorem memRead_eq_next {s : State} {a : Word} {w : Width} {v : Word} (h : memRead s a w = .next v) :
    Accessible s a w ∧ v = s.cell a w := by
  obtain ⟨_, hc, hv⟩ := andThen_eq_next h
  rcases checkAccess_cases s a w with ⟨h', _⟩ | ⟨_, _, h'⟩ | ⟨_, r, h'⟩
  · exact ⟨h', (Host.Outcome.next.inj hv).symm⟩
  · rw [h', rangeTrap] at hc; exact absurd hc (by simp)
  · rw [h'] at hc; exact absurd hc (by simp)

/-- If a write answers a state, the access was accessible and only the cell changed. -/
theorem memWrite_eq_next {s t : State} {a : Word} {w : Width} {v : Word} (h : memWrite s a w v = .next t) :
    Accessible s a w ∧ t = s.setCell a w v := by
  obtain ⟨_, hc, hv⟩ := andThen_eq_next h
  rcases checkAccess_cases s a w with ⟨h', _⟩ | ⟨_, _, h'⟩ | ⟨_, r, h'⟩
  · exact ⟨h', (Host.Outcome.next.inj hv).symm⟩
  · rw [h', rangeTrap] at hc; exact absurd hc (by simp)
  · rw [h'] at hc; exact absurd hc (by simp)

/-- If a read faults, it is the range trap of an access out of range. -/
theorem memRead_eq_fault {s : State} {a : Word} {w : Width} {f : Fault} (h : memRead s a w = .fault f) :
    Permitted s a w ∧ ¬ InRange s a w ∧ f = .trap (.memoryRange a w) s.cfg.pcallMemRange s.pc := by
  rcases checkAccess_cases s a w with ⟨_, h'⟩ | ⟨h1, h2, h'⟩ | ⟨_, r, h'⟩ <;> simp only [memRead, h', rangeTrap] at h
  · simp at h
  · exact ⟨h1, h2, by simpa using h.symm⟩
  · simp at h

/-- If a write faults, it is the range trap of an access out of range. -/
theorem memWrite_eq_fault {s : State} {a : Word} {w : Width} {v : Word} {f : Fault} (h : memWrite s a w v = .fault f) :
    Permitted s a w ∧ ¬ InRange s a w ∧ f = .trap (.memoryRange a w) s.cfg.pcallMemRange s.pc := by
  rcases checkAccess_cases s a w with ⟨_, h'⟩ | ⟨h1, h2, h'⟩ | ⟨_, r, h'⟩ <;> simp only [memWrite, h', rangeTrap] at h
  · simp at h
  · exact ⟨h1, h2, by simpa using h.symm⟩
  · simp at h

/-- If a read is refused, the access was not permitted. -/
theorem memRead_eq_refused {s : State} {a : Word} {w : Width} {r : Refusal} (h : memRead s a w = .refused r) :
    ¬ Permitted s a w := by
  rcases checkAccess_cases s a w with ⟨_, h'⟩ | ⟨_, _, h'⟩ | ⟨h', _⟩
  · simp [memRead, h'] at h
  · simp [memRead, h', rangeTrap] at h
  · exact h'

/-- If a write is refused, the access was not permitted. -/
theorem memWrite_eq_refused {s : State} {a : Word} {w : Width} {v : Word} {r : Refusal} (h : memWrite s a w v = .refused r) :
    ¬ Permitted s a w := by
  rcases checkAccess_cases s a w with ⟨_, h'⟩ | ⟨_, _, h'⟩ | ⟨h', _⟩
  · simp [memWrite, h'] at h
  · simp [memWrite, h', rangeTrap] at h
  · exact h'

/-! ### Cells -/

theorem State.readByte_setCell_outside (s : State) (a : Word) (w : Width) (v : Word) (x : Nat)
    (h : x < a.toNat ∨ a.toNat + w.bytes ≤ x) : (s.setCell a w v).readByte x = s.readByte x :=
  Memory.read_writeBytes_outside _ _ _ _ (by simpa using h)

/-- The cell just written holds the low bytes of the value (20_memory.md R45). -/
theorem State.cell_setCell (s : State) (a : Word) (w : Width) (v : Word) :
    (s.setCell a w v).cell a w = BitVec.ofNat 64 (v.toNat % 256 ^ w.bytes) := by
  have h := Memory.readBytes_writeBytes s.mem a.toNat (splitBytes s.cfg.byteOrder w.bytes v)
  rw [splitBytes_length] at h
  rw [State.cell, State.setCell, h, joinBytes_splitBytes]

/-- States with the same byte order and the same bytes of a cell read it alike. -/
theorem State.cell_congr {s t : State} (a : Word) (w : Width) (hc : t.cfg.byteOrder = s.cfg.byteOrder)
    (h : ∀ i, i < w.bytes → t.readByte (a.toNat + i) = s.readByte (a.toNat + i)) : t.cell a w = s.cell a w := by
  unfold State.cell
  rw [hc, Memory.readBytes_congr _ _ _ _ h]

/-! ### `finish` and `raise` -/

@[simp] theorem finish_eq (s : State) (rd : Reg) (v : Word) : finish s rd v = .next (s.writeReg rd v).advance := rfl

@[simp] theorem raise_eq {α : Type} (s : State) (c : Cause) :
    (raise s c : Result α) = .fault (.trap c (c.number s.cfg) s.pc) := rfl

/-- What writing a result does and leaves alone. -/
theorem finish_writesResult (s : State) (rd : Reg) (v : Word) : WritesResult s (s.writeReg rd v).advance rd v :=
  ⟨fun r => by rw [State.advance_readReg, State.readReg_writeReg], by simp, fun a => by simp, by simp [SameSystem]⟩

end Sys2Proof.Machine
end

