-- ==== Sys2Proof/Laws/Pcall.lean ====
section
/-! SUPPORT. Everything the processor interface can answer (45_pcall.md), said once. -/

namespace Sys2Proof.Machine

/-- The one answer of the processor interface for each pair r29:r28 (45_pcall.md R162 to R170, R174). -/
theorem processorInterface_cases (s : State) :
    (s.readReg 29 = 0 ∧ s.readReg 28 = 0 ∧ processorInterface s = .next (interruptVectorCheck s)) ∨
    (s.readReg 29 = 0 ∧ s.readReg 28 = 1 ∧ processorInterface s = .next (interruptVectorEnable s)) ∨
    (s.readReg 29 = 1 ∧ s.readReg 28 = 0 ∧ processorInterface s = .next (pagingCheck s)) ∨
    (s.readReg 29 = 1 ∧ s.readReg 28 = 1 ∧ processorInterface s = .next (pagingEnable s)) ∨
    (s.readReg 29 = 2 ∧ s.readReg 28 = 0 ∧ processorInterface s = .next (informationCheck s)) ∨
    (s.readReg 28 = 0 ∧ processorInterface s = .next (absentGroupCheck s)) ∨
    processorInterface s = .refused (.undefinedFunction (s.readReg 29) (s.readReg 28)) := by
  unfold processorInterface
  dsimp only
  split
  · rename_i h; exact .inl ⟨h.1, h.2, rfl⟩
  split
  · rename_i h; exact .inr (.inl ⟨h.1, h.2, rfl⟩)
  split
  · rename_i h; exact .inr (.inr (.inl ⟨h.1, h.2, rfl⟩))
  split
  · rename_i h; exact .inr (.inr (.inr (.inl ⟨h.1, h.2, rfl⟩)))
  split
  · rename_i h; exact .inr (.inr (.inr (.inr (.inl ⟨h.1, h.2, rfl⟩))))
  split
  · rename_i h; exact .inr (.inr (.inr (.inr (.inr (.inl ⟨h, rfl⟩)))))
  · exact .inr (.inr (.inr (.inr (.inr (.inr rfl)))))

/-! ### What each function leaves of the paging state and the vector register -/

@[simp] theorem interruptVectorCheck_paging (s : State) : (interruptVectorCheck s).paging = s.paging := by
  unfold interruptVectorCheck; cases s.cfg.ivMode <;> simp
@[simp] theorem interruptVectorEnable_paging (s : State) : (interruptVectorEnable s).paging = s.paging := by
  unfold interruptVectorEnable; cases s.cfg.ivMode <;> rfl
@[simp] theorem pagingCheck_paging (s : State) : (pagingCheck s).paging = s.paging := by
  unfold pagingCheck; dsimp only; split <;> simp
@[simp] theorem informationCheck_paging (s : State) : (informationCheck s).paging = s.paging := by
  simp [informationCheck]
@[simp] theorem absentGroupCheck_paging (s : State) : (absentGroupCheck s).paging = s.paging := by
  simp [absentGroupCheck]

/-- Everything paging enable does to the paging state (45_pcall.md R167). -/
theorem pagingEnable_paging (s : State) :
    (pagingEnable s).paging = if s.cfg.pageLevels = 0 then s.paging else some (s.readReg 30) := by
  unfold pagingEnable; split <;> rfl

@[simp] theorem interruptVectorCheck_cfg (s : State) : (interruptVectorCheck s).cfg = s.cfg := by
  unfold interruptVectorCheck; cases s.cfg.ivMode <;> simp

end Sys2Proof.Machine
end

