-- ==== Sys2Proof/Machine/Boot.lean ====
section
/-! DEFINITION. What a program must do after the start of a run, before it relies on a rule (70_reset_and_hazards.md R202): the source
lists no boot requirement, and the spec derives five items from its other rules. Nothing here runs; each item is a predicate on states or
instructions. There is no control register to initialise and no memory map to program: `State` holds none. -/

namespace Sys2Proof

/-- The registers whose value an instruction uses (00_scope.md R11; the field roles of each instruction's own rule). -/
def Instr.reads : Instr → List Reg
  | .andr _ r1 r2 | .xorr _ r1 r2 | .orr _ r1 r2 => [r1, r2]
  | .andi _ r1 _ | .xori _ r1 _ | .ori _ r1 _ | .not _ r1 | .cnt _ r1 _ => [r1]
  | .llsr _ r1 r2 | .lrsr _ r1 r2 | .alsr _ r1 r2 | .arsr _ r1 r2 => [r1, r2]
  | .llsi _ r1 _ | .lrsi _ r1 _ | .alsi _ r1 _ | .arsi _ r1 _ => [r1]
  | .addr _ r1 r2 | .subr _ r1 r2 | .umulr _ r1 r2 | .smulr _ r1 r2 | .udivr _ r1 r2 | .sdivr _ r1 r2 => [r1, r2]
  | .addi _ r1 _ | .subi _ r1 _ | .umuli _ r1 _ | .smuli _ r1 _ | .udivi _ r1 _ | .sdivi _ r1 _ => [r1]
  | .call rd r1 r2 => [rd, r1, r2]
  | .push rd r1 _ => [rd, r1]
  | .retn r1 _ | .pull _ r1 => [r1]
  | .ldb _ r1 _ | .ldh _ r1 _ | .ldw _ r1 _ | .ldd _ r1 _ => [r1]
  | .stb rd r1 _ | .sth rd r1 _ | .stw rd r1 _ | .std rd r1 _ => [rd, r1]
  | .jal _ _ => []
  | .jalr _ r1 _ => [r1]
  | .je rd r1 _ | .jne rd r1 _ | .jgu rd r1 _ | .jleu rd r1 _ => [rd, r1]

/-- The registers an instruction writes, `r00` among them where a field names it. -/
def Instr.writes : Instr → List Reg
  | .andr rd _ _ | .xorr rd _ _ | .orr rd _ _ | .andi rd _ _ | .xori rd _ _ | .ori rd _ _ | .not rd _ | .cnt rd _ _ => [rd]
  | .llsr rd _ _ | .lrsr rd _ _ | .alsr rd _ _ | .arsr rd _ _ => [rd]
  | .llsi rd _ _ | .lrsi rd _ _ | .alsi rd _ _ | .arsi rd _ _ => [rd]
  | .addr rd _ _ | .subr rd _ _ | .umulr rd _ _ | .smulr rd _ _ | .udivr rd _ _ | .sdivr rd _ _ => [rd]
  | .addi rd _ _ | .subi rd _ _ | .umuli rd _ _ | .smuli rd _ _ | .udivi rd _ _ | .sdivi rd _ _ => [rd]
  | .call _ r1 r2 => [r1, r2]
  | .push rd _ _ => [rd]
  | .retn r1 r2 => [r1, r2]
  | .pull rd r1 => [rd, r1]
  | .ldb rd _ _ | .ldh rd _ _ | .ldw rd _ _ | .ldd rd _ _ => [rd]
  | .stb _ _ _ | .sth _ _ _ | .stw _ _ _ | .std _ _ _ => []
  | .jal r1 _ => [r1]
  | .jalr rd _ _ => [rd]
  | .je _ _ _ | .jne _ _ _ | .jgu _ _ _ | .jleu _ _ _ => []

/-- Items 2 and 3: every register the instruction reads is `r00` or has been written (70_reset_and_hazards.md R202). -/
abbrev SetUp (written : List Reg) (i : Instr) : Prop := ∀ r ∈ i.reads, r = 0 ∨ r ∈ written

/-- Items 2 and 3 for a straight run of instructions: each reads only what was written before it, by the instructions above it too. -/
def SetUpAll : List Reg → List Instr → Prop
  | _, [] => True
  | written, i :: is => SetUp written i ∧ SetUpAll (i.writes ++ written) is

/-- Item 3: the safe forms that clear a register, each of which reads only `r00` (70_reset_and_hazards.md R202). -/
def clearForms (r : Reg) : List Instr := [.andr r 0 0, .addr r 0 0, .addi r 0 0]

namespace Machine

/-- Item 1: above the stack pointer `sp` there is room inside MEMSIZE for `calls` calls, 16 bytes each, and `pushes` pushes, 8 bytes
each; the stack grows upward, so `sp` starts at the low end (70_reset_and_hazards.md R202; 42_group1_call_stack.md R121). -/
abbrev StackRoom (s : State) (sp : Reg) (calls pushes : Nat) : Prop :=
  (s.readReg sp).toNat + 16 * calls + 8 * pushes ≤ s.cfg.memSize

/-- Items 2 and 3: two states that differ at most in registers a program has not written yet. -/
structure AgreeOn (written : List Reg) (s t : State) : Prop where
  cfg : t.cfg = s.cfg
  pc : t.pc = s.pc
  mem : t.mem = s.mem
  ivr : t.ivr = s.ivr
  paging : t.paging = s.paging
  nesting : t.nesting = s.nesting
  reg : ∀ r, r = 0 ∨ r ∈ written → t.readReg r = s.readReg r

/-- Two outcomes that differ at most in registers not written yet: the same fault, the same refusal, or next states that agree. -/
def AgreeOutcome (written : List Reg) : Result State → Result State → Prop
  | .next s, .next t => AgreeOn written s t
  | .fault a, .fault b => a = b
  | .refused a, .refused b => a = b
  | _, _ => False

/-- A straight run of instructions executed one after the other. -/
def execAll : List Instr → State → Result State
  | [], s => .next s
  | i :: is, s => andThen (exec i s) (execAll is)

/-- Item 4: the functions of `pcall -1`, as pairs r29:r28 in order, with which a program that wants handlers sets up the interrupt vector:
the check and then, with the pointer in `r31`, the enable, where IV_MODE is 2. With 0 there is nothing to set up, and with 1 the enable
ignores its value (70_reset_and_hazards.md R202; 45_pcall.md R164, R165). -/
def vectorSetUp (m : IvMode) : List (Word × Word) :=
  match m with
  | .impossible => []
  | .fixedAddress => []
  | .anywhere => [(0, 0), (0, 1)]

/-- Item 5: paging is off, as it is at the start of every run and stays unless `pagingEnable` turns it on (70_reset_and_hazards.md
R202). -/
abbrev PagingOff (s : State) : Prop := s.paging = none

end Machine

end Sys2Proof
end

