-- ==== Sys2Proof/Laws/Boot.lean ====
section
/-! SUPPORT. What the items of the boot requirements (70_reset_and_hazards.md R202) are good for: the stack room that item 1 asks for makes
calls and pushes complete, a program that keeps items 2 and 3 cannot tell what an unwritten register holds, item 4 sets the vector
register, and item 5's paging stays off unless it is enabled. -/

namespace Sys2Proof.Machine

/-! ### Item 1: room for the stack -/

section StackRoom

variable {s : State} {calls pushes : Nat}

/-- With paging off and no alignment required, every access inside MEMSIZE completes. -/
theorem accessible_of_le {a : Word} {w : Width} (hp : PagingOff s) (ha : s.cfg.alignRequired = false)
    (h : a.toNat + w.bytes ≤ s.cfg.memSize) : Accessible s a w := ⟨⟨hp, .inl ha⟩, h⟩

/-- Room for one more push: the push completes and leaves room for the rest (R202 item 1). -/
theorem push_of_stackRoom {rd r1 : Reg} {imm : ImmS} (hp : PagingOff s) (ha : s.cfg.alignRequired = false)
    (h : StackRoom s rd calls (pushes + 1)) :
    ∃ t, exec (.push rd r1 imm) s = .next t ∧ StackRoom t rd calls pushes := by
  have hA : Accessible s (s.readReg rd) .double := accessible_of_le hp ha (by simp only [StackRoom, Width.bytes] at *; omega)
  refine ⟨_, by simp only [exec, execPush, memWrite_of_accessible hA, andThen_next]; rfl, ?_⟩
  simp only [StackRoom, State.advance_readReg, State.advance_cfg, State.writeReg_cfg, State.setCell_cfg,
    State.readReg_writeReg, State.setCell_readReg] at *
  split <;> bv_omega

/-- Room for one more call: the call completes and leaves room for the rest (R202 item 1). -/
theorem call_of_stackRoom {rd r1 r2 : Reg} (hp : PagingOff s) (ha : s.cfg.alignRequired = false)
    (h : StackRoom s r1 (calls + 1) pushes) :
    ∃ t, exec (.call rd r1 r2) s = .next t ∧ StackRoom t r1 calls pushes := by
  have hA : Accessible s (s.readReg r1) .double := accessible_of_le hp ha (by simp only [StackRoom, Width.bytes] at *; omega)
  have hB : ∀ v, Accessible (s.setCell (s.readReg r1) .double v) (s.readReg r1 + 8) .double := fun v =>
    accessible_of_le hp ha (by simp only [StackRoom, Width.bytes, State.setCell_cfg] at *; bv_omega)
  refine ⟨_, by simp only [exec, execCall, memWrite_of_accessible hA, memWrite_of_accessible (hB _), andThen_next]; rfl, ?_⟩
  simp only [StackRoom, State.setPc_readReg, State.setPc_cfg, State.writeReg_cfg, State.setCell_cfg,
    State.readReg_writeReg, State.setCell_readReg] at *
  repeat' split
  all_goals bv_omega

end StackRoom

/-! ### Items 2 and 3: registers that nothing has written are not read -/

section AgreeOn

variable {written : List Reg} {s t : State}

theorem AgreeOn.immS_eq (h : AgreeOn written s t) (imm : ImmS) : t.immS imm = s.immS imm := by simp [State.immS, h.cfg]

theorem AgreeOn.effAddr_eq (h : AgreeOn written s t) {r : Reg} (hr : r = 0 ∨ r ∈ written) (imm : ImmS) :
    t.effAddr r imm = s.effAddr r imm := by simp [State.effAddr, h.reg r hr, h.immS_eq]

theorem AgreeOn.nextPc_eq (h : AgreeOn written s t) : t.nextPc = s.nextPc := by simp [State.nextPc, h.pc]

/-- Fewer registers are agreed on where fewer have been written. -/
theorem AgreeOn.mono {fewer : List Reg} (h : AgreeOn written s t) (hsub : ∀ r ∈ fewer, r ∈ written) : AgreeOn fewer s t :=
  { h with reg := fun r hr => h.reg r (hr.imp id (hsub r)) }

theorem AgreeOn.setPc (h : AgreeOn written s t) (p : Word) : AgreeOn written (s.setPc p) (t.setPc p) :=
  { h with pc := rfl }

theorem AgreeOn.advance (h : AgreeOn written s t) : AgreeOn written s.advance t.advance :=
  { h with pc := by simp [h.pc] }

theorem AgreeOn.setCell (h : AgreeOn written s t) (a : Word) (w : Width) (v : Word) :
    AgreeOn written (s.setCell a w v) (t.setCell a w v) :=
  { h with mem := by simp [State.setCell, h.mem, h.cfg] }

/-- After a write of the same value the register written is agreed on too. -/
theorem AgreeOn.writeReg (h : AgreeOn written s t) (r : Reg) (v : Word) :
    AgreeOn (r :: written) (s.writeReg r v) (t.writeReg r v) where
  cfg := by simp [h.cfg]
  pc := by simp [h.pc]
  mem := by simp [h.mem]
  ivr := by simp [h.ivr]
  paging := by simp [h.paging]
  nesting := by simp [h.nesting]
  reg q hq := by
    simp only [State.readReg_writeReg]
    split
    · rfl
    · rename_i hn
      refine h.reg q (hq.elim .inl fun hm => ?_)
      rcases List.mem_cons.1 hm with rfl | hm
      · exact .inl (by simpa using hn)
      · exact .inr hm

theorem AgreeOn.cell_eq (h : AgreeOn written s t) (a : Word) (w : Width) : t.cell a w = s.cell a w := by
  simp [State.cell, h.mem, h.cfg]

theorem AgreeOn.raise_eq {α : Type} (h : AgreeOn written s t) (c : Cause) : (raise t c : Result α) = raise s c := by
  simp [h.cfg, h.pc]

theorem AgreeOn.checkAccess_eq (h : AgreeOn written s t) (a : Word) (w : Width) :
    checkAccess t a w = checkAccess s a w := by
  simp only [checkAccess, h.cfg, h.paging, h.raise_eq]

theorem AgreeOn.memRead_eq (h : AgreeOn written s t) (a : Word) (w : Width) : memRead t a w = memRead s a w := by
  simp only [memRead, h.checkAccess_eq, h.cell_eq]

/-- Two results that answer alike go on alike. -/
theorem AgreeOutcome.bind {before : List Reg} {x y : Result State} {f g : State → Result State}
    (h : AgreeOutcome before x y) (hf : ∀ s t, AgreeOn before s t → AgreeOutcome written (f s) (g t)) :
    AgreeOutcome written (andThen x f) (andThen y g) := by
  cases x <;> cases y <;> first | exact hf _ _ h | exact h | exact h.elim

/-- The same, where both have read one value. -/
theorem AgreeOutcome.read {α : Type} (x : Result α) {f g : α → Result State}
    (hf : ∀ v, AgreeOutcome written (f v) (g v)) : AgreeOutcome written (andThen x f) (andThen x g) := by
  cases x
  · exact hf _
  · rfl
  · rfl

theorem AgreeOutcome.mono {fewer : List Reg} {x y : Result State} (h : AgreeOutcome written x y)
    (hsub : ∀ r ∈ fewer, r ∈ written) : AgreeOutcome fewer x y := by
  cases x <;> cases y <;> first | exact AgreeOn.mono h hsub | exact h

theorem AgreeOn.memWrite_agrees (h : AgreeOn written s t) (a : Word) (w : Width) (v : Word) :
    AgreeOutcome written (memWrite s a w v) (memWrite t a w v) := by
  simp only [memWrite, h.checkAccess_eq]
  exact AgreeOutcome.read _ fun _ => h.setCell a w v

theorem AgreeOn.finish_agrees (h : AgreeOn written s t) (rd : Reg) {v v' : Word} (hv : v' = v) :
    AgreeOutcome (rd :: written) (finish s rd v) (finish t rd v') := hv ▸ (h.writeReg rd v).advance

theorem AgreeOn.divide_agrees (h : AgreeOn written s t) (q : Word → Word → Word) (rd : Reg) {a a' b b' : Word} (ha : a' = a)
    (hb : b' = b) : AgreeOutcome (rd :: written) (divide q s rd a b) (divide q t rd a' b') := by
  subst ha hb
  unfold divide
  split
  · rw [h.raise_eq]; rfl
  · exact h.finish_agrees rd rfl

theorem AgreeOn.load_agrees (h : AgreeOn written s t) (w : Width) (rd : Reg) {r1 : Reg} (hr : r1 = 0 ∨ r1 ∈ written) (imm : ImmS) :
    AgreeOutcome (rd :: written) (load w rd r1 imm s) (load w rd r1 imm t) := by
  simp only [load, h.effAddr_eq hr, h.memRead_eq]
  exact AgreeOutcome.read _ fun v => h.finish_agrees rd rfl

theorem AgreeOn.store_agrees (h : AgreeOn written s t) (w : Width) {rd r1 : Reg} (hd : rd = 0 ∨ rd ∈ written)
    (hr : r1 = 0 ∨ r1 ∈ written) (imm : ImmS) :
    AgreeOutcome written (store w rd r1 imm s) (store w rd r1 imm t) := by
  simp only [store, h.effAddr_eq hd, h.reg r1 hr]
  exact (h.memWrite_agrees _ w _).bind fun _ _ h' => h'.advance

theorem AgreeOn.branch_agrees (h : AgreeOn written s t) {c c' : Bool} (hc : c' = c) (imm : ImmS) :
    AgreeOutcome written (branch c imm s) (branch c' imm t) := by
  subst hc
  simp only [branch, State.branchTarget, h.immS_eq, h.pc, h.nextPc_eq]
  exact h.setPc _

theorem AgreeOn.call_agrees (h : AgreeOn written s t) {rd r1 r2 : Reg} (hd : rd = 0 ∨ rd ∈ written) (h1 : r1 = 0 ∨ r1 ∈ written)
    (h2 : r2 = 0 ∨ r2 ∈ written) : AgreeOutcome (r2 :: r1 :: written) (execCall rd r1 r2 s) (execCall rd r1 r2 t) := by
  simp only [execCall, h.reg r1 h1, h.reg r2 h2, h.nextPc_eq]
  refine (h.memWrite_agrees _ _ _).bind fun _ _ ha => (ha.memWrite_agrees _ _ _).bind fun u v hb => ?_
  have hc := hb.writeReg r1 (s.readReg r1 + 16)
  have he := hc.writeReg r2 ((u.writeReg r1 (s.readReg r1 + 16)).readReg r1)
  rw [hc.reg r1 (.inr (by simp)), he.reg rd (hd.imp id fun h => by simp [h])]
  exact he.setPc _

theorem AgreeOn.push_agrees (h : AgreeOn written s t) {rd r1 : Reg} (hd : rd = 0 ∨ rd ∈ written) (h1 : r1 = 0 ∨ r1 ∈ written)
    (imm : ImmS) : AgreeOutcome (rd :: written) (execPush rd r1 imm s) (execPush rd r1 imm t) := by
  simp only [execPush, h.reg rd hd, h.reg r1 h1, h.immS_eq]
  refine (h.memWrite_agrees _ _ _).bind fun _ _ ha => ?_
  rw [ha.reg rd hd]
  exact (ha.writeReg rd _).advance

theorem AgreeOn.retn_agrees (h : AgreeOn written s t) {r1 : Reg} (r2 : Reg) (h1 : r1 = 0 ∨ r1 ∈ written) :
    AgreeOutcome (r2 :: r1 :: written) (execRetn r1 r2 s) (execRetn r1 r2 t) := by
  have ha := h.writeReg r1 (s.readReg r1 - 16)
  simp only [execRetn, h.reg r1 h1, ha.reg r1 (.inr (by simp)), ha.memRead_eq]
  refine AgreeOutcome.read _ fun bp => ?_
  have hb := ha.writeReg r2 bp
  simp only [hb.reg r1 (.inr (by simp)), hb.memRead_eq]
  exact AgreeOutcome.read _ fun _ => hb.setPc _

theorem AgreeOn.pull_agrees (h : AgreeOn written s t) (rd : Reg) {r1 : Reg} (h1 : r1 = 0 ∨ r1 ∈ written) :
    AgreeOutcome (r1 :: rd :: written) (execPull rd r1 s) (execPull rd r1 t) := by
  simp only [execPull, h.reg r1 h1, h.memRead_eq]
  refine AgreeOutcome.read _ fun v => ?_
  have ha := h.writeReg rd v
  rw [ha.reg r1 (h1.imp id fun h => by simp [h])]
  exact (ha.writeReg r1 _).advance

theorem AgreeOn.jal_agrees (h : AgreeOn written s t) (r1 : Reg) (imm : ImmL) :
    AgreeOutcome (r1 :: written) (execJal r1 imm s) (execJal r1 imm t) := by
  simp only [execJal, State.immL, h.cfg, h.pc, h.nextPc_eq]
  exact (h.writeReg r1 _).setPc _

theorem AgreeOn.jalr_agrees (h : AgreeOn written s t) (rd : Reg) {r1 : Reg} (h1 : r1 = 0 ∨ r1 ∈ written) (imm : ImmS) :
    AgreeOutcome (rd :: written) (execJalr rd r1 imm s) (execJalr rd r1 imm t) := by
  have ha := h.writeReg rd s.nextPc
  simp only [execJalr, h.nextPc_eq, h.pc, h.immS_eq, ha.reg r1 (h1.imp id fun h => by simp [h])]
  exact ha.setPc _

theorem AgreeOn.jleu_agrees (h : AgreeOn written s t) {rd r1 : Reg} (hd : rd = 0 ∨ rd ∈ written) (h1 : r1 = 0 ∨ r1 ∈ written)
    (imm : ImmS) : AgreeOutcome written (execJleu rd r1 imm s) (execJleu rd r1 imm t) := by
  simp only [execJleu, h.cfg, h.reg rd hd, h.reg r1 h1]
  split
  · exact h.branch_agrees rfl imm
  · rfl

/-- An instruction whose registers are set up cannot tell what an unwritten register holds (R202 items 2 and 3): from states that agree
on the registers written so far it stops alike, or goes on to states that agree on these and on what it wrote. -/
theorem exec_agrees (h : AgreeOn written s t) {i : Instr} (hi : SetUp written i) :
    AgreeOutcome (i.writes ++ written) (exec i s) (exec i t) := by
  have swap {a b : Reg} : ∀ r ∈ a :: b :: written, r ∈ b :: a :: written := by
    intro r hr; simp only [List.mem_cons] at *; tauto
  cases i <;> simp only [SetUp, Instr.reads, List.forall_mem_cons, List.not_mem_nil, false_imp_iff, implies_true, and_true] at hi <;>
    simp only [Instr.writes, List.cons_append, List.nil_append, exec]
  case call => exact (h.call_agrees hi.1 hi.2.1 hi.2.2).mono swap
  case push => exact h.push_agrees hi.1 hi.2 _
  case retn => exact (h.retn_agrees _ hi).mono swap
  case pull => exact (h.pull_agrees _ hi).mono swap
  case jal => exact h.jal_agrees _ _
  case jalr => exact h.jalr_agrees _ hi _
  case jleu => exact h.jleu_agrees hi.1 hi.2 _
  case ldb | ldh | ldw | ldd => exact h.load_agrees _ _ hi _
  case stb | sth | stw | std => exact h.store_agrees _ hi.1 hi.2 _
  case je | jne | jgu => exact h.branch_agrees (by simp only [h.cfg, h.reg _ hi.1, h.reg _ hi.2]) _
  case udivr | sdivr => exact h.divide_agrees _ _ (h.reg _ hi.1) (h.reg _ hi.2)
  case udivi | sdivi => exact h.divide_agrees _ _ (h.reg _ hi) (h.immS_eq _)
  case not => exact h.finish_agrees _ (by simp only [h.reg _ hi])
  case andi | xori | ori | cnt | llsi | lrsi | alsi | arsi | addi | subi | umuli | smuli =>
    exact h.finish_agrees _ (by simp only [h.cfg, h.reg _ hi, h.immS_eq])
  case andr | xorr | orr | llsr | lrsr | alsr | arsr | addr | subr | umulr | smulr =>
    exact h.finish_agrees _ (by simp only [h.reg _ hi.1, h.reg _ hi.2])

/-- A straight run of instructions that writes every register before it reads it cannot tell what the others hold (R202 item 3). -/
theorem execAll_agrees {is : List Instr} (h : AgreeOn written s t) (hi : SetUpAll written is) :
    AgreeOutcome written (execAll is s) (execAll is t) := by
  induction is generalizing written s t with
  | nil => exact h
  | cons i is ih =>
    refine (exec_agrees h hi.1).bind fun u v huv => (ih huv hi.2).mono fun r hr => ?_
    exact List.mem_append_right _ hr

end AgreeOn

/-- The safe forms need no register set up, and clear theirs (R202 item 3). -/
theorem clearForms_clear (r : Reg) (s : State) : ∀ i ∈ clearForms r, SetUp [] i ∧ exec i s = finish s r 0 := by
  have hz : s.immS 0#46 = 0#64 := by unfold State.immS widen; cases s.cfg.immExt <;> rfl
  simp only [clearForms, List.forall_mem_cons, List.not_mem_nil, false_imp_iff, implies_true, and_true]
  refine ⟨⟨?_, ?_⟩, ⟨?_, ?_⟩, ?_, ?_⟩ <;> simp [SetUp, Instr.reads, exec, execAndr, execAddr, execAddi, hz]

/-- `xorr r, r, r` clears `r` too, every register holding a value in this model (log 1), but reads `r`: it is not set up (R202 item 3). -/
theorem xorr_self_clears (r : Reg) (s : State) : exec (.xorr r r r) s = finish s r 0 ∧ (r ≠ 0 → ¬ SetUp [] (.xorr r r r)) :=
  ⟨by simp [exec, execXorr], fun h => by simp [SetUp, Instr.reads, h]⟩

/-! ### Item 4: the vector register -/

/-- The enable after the check, with the pointer in `r31`, sets the vector register on an implementation with IV_MODE = 2 (R202 item 4). -/
theorem vectorSetUp_sets (s : State) (pointer : Word) (h : s.cfg.ivMode = .anywhere) :
    (interruptVectorEnable ((interruptVectorCheck s).writeReg 31 pointer)).ivr = some pointer := by
  have hc : ((interruptVectorCheck s).writeReg 31 pointer).cfg.ivMode = .anywhere := by simp [h]
  have hr : ((interruptVectorCheck s).writeReg 31 pointer).readReg 31 = pointer := by simp [State.readReg_writeReg]
  simp only [interruptVectorEnable, hc, State.advance_ivr, hr]

/-! ### Item 5: paging -/

/-- Paging is off at the start of every run (R202 item 5). -/
@[simp] theorem State.startOfRun_paging (c : Config) (regs : Vector Word 32) (image : Memory) :
    (State.startOfRun c regs image).paging = none := rfl

/-- A `pcall -1` turns paging on only by paging enable, on a processor that has it (R202 item 5; 45_pcall.md R167). -/
theorem processorInterface_paging {s t : State} (h : processorInterface s = .next t) :
    t.paging = s.paging ∨
      (s.readReg 29 = 1 ∧ s.readReg 28 = 1 ∧ s.cfg.pageLevels ≠ 0 ∧ t.paging = some (s.readReg 30)) := by
  rcases processorInterface_cases s with ⟨_, _, e⟩ | ⟨_, _, e⟩ | ⟨_, _, e⟩ | ⟨h29, h28, e⟩ | ⟨_, _, e⟩ | ⟨_, e⟩ | e <;>
    rw [e] at h <;> cases h
  · exact .inl (by simp)
  · exact .inl (by simp)
  · exact .inl (by simp)
  · rw [pagingEnable_paging]
    split
    · exact .inl rfl
    · rename_i hl; exact .inr ⟨h29, h28, hl, rfl⟩
  · exact .inl (by simp)
  · exact .inl (by simp)

end Sys2Proof.Machine
end

