-- ==== Sys2Proof/Laws/PerInstr.lean ====
section
/-! SUPPORT. Facts about every instruction, one lemma per constructor. -/

namespace Sys2Proof.Laws.OpcodeByte

/-- The low byte of an instruction's word is its opcode (30_encoding.md R64). -/
def Statement (i : Instr) : Prop := opcodeField (encode i) = i.opcode

theorem encodeR_opcode (op : BitVec 8) (rd r1 r2 : Reg) : opcodeField (encodeR op rd r1 r2) = op := by
  apply BitVec.eq_of_toNat_eq
  have := op.isLt
  simp only [opcodeField, encodeR, BitVec.extractLsb'_toNat, BitVec.toNat_ofNat, Nat.shiftRight_zero]
  omega

theorem encodeS_opcode (op : BitVec 8) (rd r1 : Reg) (imm : ImmS) : opcodeField (encodeS op rd r1 imm) = op := by
  apply BitVec.eq_of_toNat_eq
  have := op.isLt
  simp only [opcodeField, encodeS, BitVec.extractLsb'_toNat, BitVec.toNat_ofNat, Nat.shiftRight_zero]
  omega

theorem encodeL_opcode (op : BitVec 8) (r1 : Reg) (imm : ImmL) : opcodeField (encodeL op r1 imm) = op := by
  apply BitVec.eq_of_toNat_eq
  have := op.isLt
  simp only [opcodeField, encodeL, BitVec.extractLsb'_toNat, BitVec.toNat_ofNat, Nat.shiftRight_zero]
  omega

theorem andr (rd r1 r2 : Reg) : Statement (.andr rd r1 r2) := encodeR_opcode _ _ _ _
theorem andi (rd r1 : Reg) (imm : ImmS) : Statement (.andi rd r1 imm) := encodeS_opcode _ _ _ _
theorem xorr (rd r1 r2 : Reg) : Statement (.xorr rd r1 r2) := encodeR_opcode _ _ _ _
theorem xori (rd r1 : Reg) (imm : ImmS) : Statement (.xori rd r1 imm) := encodeS_opcode _ _ _ _
theorem orr (rd r1 r2 : Reg) : Statement (.orr rd r1 r2) := encodeR_opcode _ _ _ _
theorem ori (rd r1 : Reg) (imm : ImmS) : Statement (.ori rd r1 imm) := encodeS_opcode _ _ _ _
theorem not (rd r1 : Reg) : Statement (.not rd r1) := encodeR_opcode _ _ _ _
theorem cnt (rd r1 : Reg) (imm : ImmS) : Statement (.cnt rd r1 imm) := encodeS_opcode _ _ _ _
theorem llsr (rd r1 r2 : Reg) : Statement (.llsr rd r1 r2) := encodeR_opcode _ _ _ _
theorem llsi (rd r1 : Reg) (imm : ImmS) : Statement (.llsi rd r1 imm) := encodeS_opcode _ _ _ _
theorem lrsr (rd r1 r2 : Reg) : Statement (.lrsr rd r1 r2) := encodeR_opcode _ _ _ _
theorem lrsi (rd r1 : Reg) (imm : ImmS) : Statement (.lrsi rd r1 imm) := encodeS_opcode _ _ _ _
theorem alsr (rd r1 r2 : Reg) : Statement (.alsr rd r1 r2) := encodeR_opcode _ _ _ _
theorem alsi (rd r1 : Reg) (imm : ImmS) : Statement (.alsi rd r1 imm) := encodeS_opcode _ _ _ _
theorem arsr (rd r1 r2 : Reg) : Statement (.arsr rd r1 r2) := encodeR_opcode _ _ _ _
theorem arsi (rd r1 : Reg) (imm : ImmS) : Statement (.arsi rd r1 imm) := encodeS_opcode _ _ _ _
theorem addr (rd r1 r2 : Reg) : Statement (.addr rd r1 r2) := encodeR_opcode _ _ _ _
theorem addi (rd r1 : Reg) (imm : ImmS) : Statement (.addi rd r1 imm) := encodeS_opcode _ _ _ _
theorem subr (rd r1 r2 : Reg) : Statement (.subr rd r1 r2) := encodeR_opcode _ _ _ _
theorem subi (rd r1 : Reg) (imm : ImmS) : Statement (.subi rd r1 imm) := encodeS_opcode _ _ _ _
theorem umulr (rd r1 r2 : Reg) : Statement (.umulr rd r1 r2) := encodeR_opcode _ _ _ _
theorem umuli (rd r1 : Reg) (imm : ImmS) : Statement (.umuli rd r1 imm) := encodeS_opcode _ _ _ _
theorem smulr (rd r1 r2 : Reg) : Statement (.smulr rd r1 r2) := encodeR_opcode _ _ _ _
theorem smuli (rd r1 : Reg) (imm : ImmS) : Statement (.smuli rd r1 imm) := encodeS_opcode _ _ _ _
theorem udivr (rd r1 r2 : Reg) : Statement (.udivr rd r1 r2) := encodeR_opcode _ _ _ _
theorem udivi (rd r1 : Reg) (imm : ImmS) : Statement (.udivi rd r1 imm) := encodeS_opcode _ _ _ _
theorem sdivr (rd r1 r2 : Reg) : Statement (.sdivr rd r1 r2) := encodeR_opcode _ _ _ _
theorem sdivi (rd r1 : Reg) (imm : ImmS) : Statement (.sdivi rd r1 imm) := encodeS_opcode _ _ _ _
theorem call (rd r1 r2 : Reg) : Statement (.call rd r1 r2) := encodeR_opcode _ _ _ _
theorem push (rd r1 : Reg) (imm : ImmS) : Statement (.push rd r1 imm) := encodeS_opcode _ _ _ _
theorem retn (r1 r2 : Reg) : Statement (.retn r1 r2) := encodeR_opcode _ _ _ _
theorem pull (rd r1 : Reg) : Statement (.pull rd r1) := encodeS_opcode _ _ _ _
theorem ldb (rd r1 : Reg) (imm : ImmS) : Statement (.ldb rd r1 imm) := encodeS_opcode _ _ _ _
theorem ldh (rd r1 : Reg) (imm : ImmS) : Statement (.ldh rd r1 imm) := encodeS_opcode _ _ _ _
theorem ldw (rd r1 : Reg) (imm : ImmS) : Statement (.ldw rd r1 imm) := encodeS_opcode _ _ _ _
theorem ldd (rd r1 : Reg) (imm : ImmS) : Statement (.ldd rd r1 imm) := encodeS_opcode _ _ _ _
theorem stb (rd r1 : Reg) (imm : ImmS) : Statement (.stb rd r1 imm) := encodeS_opcode _ _ _ _
theorem sth (rd r1 : Reg) (imm : ImmS) : Statement (.sth rd r1 imm) := encodeS_opcode _ _ _ _
theorem stw (rd r1 : Reg) (imm : ImmS) : Statement (.stw rd r1 imm) := encodeS_opcode _ _ _ _
theorem std (rd r1 : Reg) (imm : ImmS) : Statement (.std rd r1 imm) := encodeS_opcode _ _ _ _
theorem jal (r1 : Reg) (imm : ImmL) : Statement (.jal r1 imm) := encodeL_opcode _ _ _
theorem jalr (rd r1 : Reg) (imm : ImmS) : Statement (.jalr rd r1 imm) := encodeS_opcode _ _ _ _
theorem je (rd r1 : Reg) (imm : ImmS) : Statement (.je rd r1 imm) := encodeS_opcode _ _ _ _
theorem jne (rd r1 : Reg) (imm : ImmS) : Statement (.jne rd r1 imm) := encodeS_opcode _ _ _ _
theorem jgu (rd r1 : Reg) (imm : ImmS) : Statement (.jgu rd r1 imm) := encodeS_opcode _ _ _ _
theorem jleu (rd r1 : Reg) (imm : ImmS) : Statement (.jleu rd r1 imm) := encodeS_opcode _ _ _ _

end Sys2Proof.Laws.OpcodeByte
end

