-- ==== Sys2Proof/Machine/Assembly.lean ====
section
/-! DEFINITION. The assembler text of an instruction (30_encoding.md section 5): mnemonic, then the operands by field, the destination
field first. A field the instruction ignores is written as `r00` or 0, as the canonical word holds it (R76). -/

namespace Sys2Proof

/-- The three layouts of an instruction word (30_encoding.md R61 to R63). -/
inductive Format where
  | r
  | s
  | l
  deriving DecidableEq, Repr

/-- One operand of an assembler line. -/
inductive AssemblyOperand where
  | register (r : Reg)
  | immediate (v : Int)
  deriving DecidableEq, Repr

/-- The layout of each instruction (30_encoding.md R68). -/
def Instr.format (i : Instr) : Format :=
  match i with
  | .andr .. | .xorr .. | .orr .. | .not .. | .llsr .. | .lrsr .. | .alsr .. | .arsr .. | .addr .. | .subr ..
  | .umulr .. | .smulr .. | .udivr .. | .sdivr .. | .call .. | .retn .. => .r
  | .andi .. | .xori .. | .ori .. | .cnt .. | .llsi .. | .lrsi .. | .alsi .. | .arsi .. | .addi .. | .subi ..
  | .umuli .. | .smuli .. | .udivi .. | .sdivi .. | .push .. | .pull .. | .ldb .. | .ldh .. | .ldw .. | .ldd ..
  | .stb .. | .sth .. | .stw .. | .std .. | .jalr .. | .je .. | .jne .. | .jgu .. | .jleu .. => .s
  | .jal .. => .l

/-- The mnemonic of each instruction (30_encoding.md R68, R73: lower case). -/
def Instr.mnemonic (i : Instr) : String :=
  match i with
  | .andr .. => "andr"
  | .andi .. => "andi"
  | .xorr .. => "xorr"
  | .xori .. => "xori"
  | .orr .. => "orr"
  | .ori .. => "ori"
  | .not .. => "not"
  | .cnt .. => "cnt"
  | .llsr .. => "llsr"
  | .llsi .. => "llsi"
  | .lrsr .. => "lrsr"
  | .lrsi .. => "lrsi"
  | .alsr .. => "alsr"
  | .alsi .. => "alsi"
  | .arsr .. => "arsr"
  | .arsi .. => "arsi"
  | .addr .. => "addr"
  | .addi .. => "addi"
  | .subr .. => "subr"
  | .subi .. => "subi"
  | .umulr .. => "umulr"
  | .umuli .. => "umuli"
  | .smulr .. => "smulr"
  | .smuli .. => "smuli"
  | .udivr .. => "udivr"
  | .udivi .. => "udivi"
  | .sdivr .. => "sdivr"
  | .sdivi .. => "sdivi"
  | .call .. => "call"
  | .push .. => "push"
  | .retn .. => "retn"
  | .pull .. => "pull"
  | .ldb .. => "ldb"
  | .ldh .. => "ldh"
  | .ldw .. => "ldw"
  | .ldd .. => "ldd"
  | .stb .. => "stb"
  | .sth .. => "sth"
  | .stw .. => "stw"
  | .std .. => "std"
  | .jal .. => "jal"
  | .jalr .. => "jalr"
  | .je .. => "je"
  | .jne .. => "jne"
  | .jgu .. => "jgu"
  | .jleu .. => "jleu"

/-- The operands of a line in the order of 30_encoding.md R73: `rd, r1, r2` for the R type, `rd, r1, imm` for the S type, `r1, imm` for
the L type; immediates as the signed value of their field. -/
def Instr.operands (i : Instr) : List AssemblyOperand :=
  match i with
  | .andr rd r1 r2 | .xorr rd r1 r2 | .orr rd r1 r2 | .llsr rd r1 r2 | .lrsr rd r1 r2 | .alsr rd r1 r2
  | .arsr rd r1 r2 | .addr rd r1 r2 | .subr rd r1 r2 | .umulr rd r1 r2 | .smulr rd r1 r2 | .udivr rd r1 r2
  | .sdivr rd r1 r2 | .call rd r1 r2 =>
    [.register rd, .register r1, .register r2]
  | .not rd r1 => [.register rd, .register r1, .register 0]
  | .retn r1 r2 => [.register 0, .register r1, .register r2]
  | .andi rd r1 imm | .xori rd r1 imm | .ori rd r1 imm | .cnt rd r1 imm | .llsi rd r1 imm | .lrsi rd r1 imm
  | .alsi rd r1 imm | .arsi rd r1 imm | .addi rd r1 imm | .subi rd r1 imm | .umuli rd r1 imm | .smuli rd r1 imm
  | .udivi rd r1 imm | .sdivi rd r1 imm | .push rd r1 imm | .ldb rd r1 imm | .ldh rd r1 imm | .ldw rd r1 imm
  | .ldd rd r1 imm | .stb rd r1 imm | .sth rd r1 imm | .stw rd r1 imm | .std rd r1 imm | .jalr rd r1 imm
  | .je rd r1 imm | .jne rd r1 imm | .jgu rd r1 imm | .jleu rd r1 imm =>
    [.register rd, .register r1, .immediate imm.toInt]
  | .pull rd r1 => [.register rd, .register r1, .immediate 0]
  | .jal r1 imm => [.register r1, .immediate imm.toInt]

/-- A register is written `r` and two decimal digits (30_encoding.md R74). -/
def registerText (r : Reg) : String := "r" ++ Nat.repr (r.val / 10) ++ Nat.repr (r.val % 10)

/-- An operand as text; an immediate is written in decimal (30_encoding.md R73). -/
def AssemblyOperand.text (o : AssemblyOperand) : String :=
  match o with
  | .register r => registerText r
  | .immediate v => if v < 0 then "-" ++ Nat.repr v.natAbs else Nat.repr v.natAbs

/-- An assembler line: the mnemonic, then the operands separated by commas (30_encoding.md R73). -/
def Instr.text (i : Instr) : String :=
  i.mnemonic ++ " " ++ ", ".intercalate (i.operands.map AssemblyOperand.text)

end Sys2Proof
end

