-- ==== Sys2Proof/Tests/Slice0.lean ====
section
/-! SUPPORT. Tests: ill-formed terms are refused, every instruction's word decodes, one or two steps per instruction, and a witness that
the hypotheses of each statement can be met. Expected values come from spec/95_test_vectors.md (the V number is in the name), from
the tables the comments name, or from the encoding strings of spec/opcode_table.json. -/

namespace Sys2Proof.Tests

open Sys2Proof Sys2Proof.Machine

/-! ### Helpers -/

/-- `s` with registers, memory cells and the pc changed. -/
def changed (s : State) (pc : Word) (rs : List (Reg × Word)) (cs : List (Word × Width × Word)) : State :=
  (cs.foldl (fun s c => s.setCell c.1 c.2.1 c.2.2) (rs.foldl (fun s r => s.writeReg r.1 r.2) s)).setPc pc

/-- The start states of 95_test_vectors.md: 0x2000 bytes of memory, the pc, the registers and the memory cells given. -/
def machineAt (pc : Word) (rs : List (Reg × Word)) (cs : List (Word × Width × Word)) : State :=
  changed (State.startOfRun { Config.standard with memSize := 0x2000 } (Vector.replicate 32 0) []) pc rs cs

/-- One step of `s` with the word `w` at the pc. -/
def runs (s : State) (w : Nat) : Result State := step (s.withFetchWord 64 w)

/-- Running `w` changes exactly the pc, the registers and the memory cells given, and nothing else in the state. -/
def completes (s : State) (w : Nat) (pc : Word) (rs : List (Reg × Word)) (cs : List (Word × Width × Word)) : Bool :=
  match runs s w with
  | .next t => decide (t = changed (s.withFetchWord 64 w) pc rs cs)
  | _ => false

/-- The outcome is the trap given. -/
def traps (o : Result State) (c : Cause) (n : InterruptNumber) (pc : Word) : Bool :=
  match o with
  | .fault f => decide (f = .trap c n pc)
  | _ => false

/-- The outcome is a next state of which `p` holds. -/
def nextWith (o : Result State) (p : State → Bool) : Bool :=
  match o with
  | .next t => p t
  | _ => false

/-- The outcome is a next state. -/
def goesOn (o : Result State) : Bool := nextWith o fun _ => true

theorem exists_next {o : Result State} (h : goesOn o = true) : ∃ t, o = .next t := by
  cases o with
  | next t => exact ⟨t, rfl⟩
  | fault r => cases h
  | refused r => cases h

/-- `s` under other parameters. -/
def under (c : Config) (s : State) : State := { s with cfg := c }

/-- The parameters of `machineAt`. -/
def small : Config := { Config.standard with memSize := 0x2000 }

/-- An encoding an owner could give `pcall`: opcode 0x80, the number in bits 63 to 13. -/
def ownersPcall : PcallEncoding := { opcode := 0x80, numberLo := 13, numberWidth := 51 }

/-! ### Ill-formed terms are refused (30_encoding.md R65, R66; 45_pcall.md R161; 00_scope.md R6) -/

theorem test_wf_register_32 : wfRegister 32 = false ∧ wfRegister 31 = true ∧ mkRegister 32 = none := by decide
theorem test_wf_immS_above : wfImmS 35184372088832 = false ∧ wfImmS 35184372088831 = true := by decide
theorem test_wf_immS_below : wfImmS (-35184372088833) = false ∧ wfImmS (-35184372088832) = true := by decide
theorem test_wf_immL_above : wfImmL 1125899906842624 = false ∧ wfImmL 1125899906842623 = true := by decide
theorem test_wf_immL_below : wfImmL (-1125899906842625) = false ∧ wfImmL (-1125899906842624) = true := by decide
theorem test_wf_mkImmS : mkImmS 35184372088832 = none ∧ mkImmS (-1) = some 0x3FFFFFFFFFFF := by decide
theorem test_wf_mkImmL : mkImmL 1125899906842624 = none ∧ mkImmL (-16) = some 0x7FFFFFFFFFFF0 := by decide
theorem test_wf_pcall_table_opcode : PcallEncoding.wellFormed ⟨0x2D, 13, 51⟩ = false := by decide
theorem test_wf_pcall_over_opcode_byte : PcallEncoding.wellFormed ⟨0x80, 7, 51⟩ = false := by decide
theorem test_wf_pcall_no_number : PcallEncoding.wellFormed ⟨0x80, 13, 0⟩ = false := by decide
theorem test_wf_pcall_wide_number : PcallEncoding.wellFormed ⟨0x80, 8, 52⟩ = false := by decide
theorem test_wf_pcall_past_the_word : PcallEncoding.wellFormed ⟨0x80, 14, 51⟩ = false := by decide
theorem test_wf_pcall : ownersPcall.wellFormed = true := by decide
theorem test_wf_no_memory : Config.wellFormed { small with memSize := 0 } = false := by decide
theorem test_wf_too_much_memory : Config.wellFormed { small with memSize := 2 ^ 64 + 1 } = false := by decide
theorem test_wf_one_page_level : Config.wellFormed { small with pageLevels := 1 } = false := by decide
theorem test_wf_ill_formed_pcall : Config.wellFormed { small with pcallEncoding := some ⟨0x00, 13, 51⟩ } = false := by
  decide
theorem test_wf_standard : Config.standard.wellFormed = true := by decide

/-! ### Every instruction's word, written out from its encoding string in spec/opcode_table.json

`rd` = 22, `r1` = 9, `r2` = 13, the S type immediate 0x20123456789A, the L type immediate 0x4123456789ABC; bits and fields an
instruction ignores are set. -/

theorem test_decode_andr : decodeWord 0b1111111111111111111111111111111111111111110110011010100100000000 =
    .ok (.andr 22 9 13) := by decide
theorem test_decode_andi : decodeWord 0b1000000001001000110100010101100111100010011010101100100100000001 =
    .ok (.andi 22 9 0x20123456789A) := by decide
theorem test_decode_xorr : decodeWord 0b1111111111111111111111111111111111111111110110011010100100000010 =
    .ok (.xorr 22 9 13) := by decide
theorem test_decode_xori : decodeWord 0b1000000001001000110100010101100111100010011010101100100100000011 =
    .ok (.xori 22 9 0x20123456789A) := by decide
theorem test_decode_orr : decodeWord 0b1111111111111111111111111111111111111111110110011010100100000100 =
    .ok (.orr 22 9 13) := by decide
theorem test_decode_ori : decodeWord 0b1000000001001000110100010101100111100010011010101100100100000101 =
    .ok (.ori 22 9 0x20123456789A) := by decide
theorem test_decode_not : decodeWord 0b1111111111111111111111111111111111111111110110011010100100000110 =
    .ok (.not 22 9) := by decide
theorem test_decode_cnt : decodeWord 0b1000000001001000110100010101100111100010011010101100100100000111 =
    .ok (.cnt 22 9 0x20123456789A) := by decide
theorem test_decode_llsr : decodeWord 0b1111111111111111111111111111111111111111110110011010100100001000 =
    .ok (.llsr 22 9 13) := by decide
theorem test_decode_llsi : decodeWord 0b1000000001001000110100010101100111100010011010101100100100001001 =
    .ok (.llsi 22 9 0x20123456789A) := by decide
theorem test_decode_lrsr : decodeWord 0b1111111111111111111111111111111111111111110110011010100100001010 =
    .ok (.lrsr 22 9 13) := by decide
theorem test_decode_lrsi : decodeWord 0b1000000001001000110100010101100111100010011010101100100100001011 =
    .ok (.lrsi 22 9 0x20123456789A) := by decide
theorem test_decode_alsr : decodeWord 0b1111111111111111111111111111111111111111110110011010100100001100 =
    .ok (.alsr 22 9 13) := by decide
theorem test_decode_alsi : decodeWord 0b1000000001001000110100010101100111100010011010101100100100001101 =
    .ok (.alsi 22 9 0x20123456789A) := by decide
theorem test_decode_arsr : decodeWord 0b1111111111111111111111111111111111111111110110011010100100001110 =
    .ok (.arsr 22 9 13) := by decide
theorem test_decode_arsi : decodeWord 0b1000000001001000110100010101100111100010011010101100100100001111 =
    .ok (.arsi 22 9 0x20123456789A) := by decide
theorem test_decode_addr : decodeWord 0b1111111111111111111111111111111111111111110110011010100100010000 =
    .ok (.addr 22 9 13) := by decide
theorem test_decode_addi : decodeWord 0b1000000001001000110100010101100111100010011010101100100100010001 =
    .ok (.addi 22 9 0x20123456789A) := by decide
theorem test_decode_subr : decodeWord 0b1111111111111111111111111111111111111111110110011010100100010010 =
    .ok (.subr 22 9 13) := by decide
theorem test_decode_subi : decodeWord 0b1000000001001000110100010101100111100010011010101100100100010011 =
    .ok (.subi 22 9 0x20123456789A) := by decide
theorem test_decode_umulr : decodeWord 0b1111111111111111111111111111111111111111110110011010100100010100 =
    .ok (.umulr 22 9 13) := by decide
theorem test_decode_umuli : decodeWord 0b1000000001001000110100010101100111100010011010101100100100010101 =
    .ok (.umuli 22 9 0x20123456789A) := by decide
theorem test_decode_smulr : decodeWord 0b1111111111111111111111111111111111111111110110011010100100010110 =
    .ok (.smulr 22 9 13) := by decide
theorem test_decode_smuli : decodeWord 0b1000000001001000110100010101100111100010011010101100100100010111 =
    .ok (.smuli 22 9 0x20123456789A) := by decide
theorem test_decode_udivr : decodeWord 0b1111111111111111111111111111111111111111110110011010100100011000 =
    .ok (.udivr 22 9 13) := by decide
theorem test_decode_udivi : decodeWord 0b1000000001001000110100010101100111100010011010101100100100011001 =
    .ok (.udivi 22 9 0x20123456789A) := by decide
theorem test_decode_sdivr : decodeWord 0b1111111111111111111111111111111111111111110110011010100100011010 =
    .ok (.sdivr 22 9 13) := by decide
theorem test_decode_sdivi : decodeWord 0b1000000001001000110100010101100111100010011010101100100100011011 =
    .ok (.sdivi 22 9 0x20123456789A) := by decide
theorem test_decode_call : decodeWord 0b1111111111111111111111111111111111111111110110011010100100011100 =
    .ok (.call 22 9 13) := by decide
theorem test_decode_push : decodeWord 0b1000000001001000110100010101100111100010011010101100100100011101 =
    .ok (.push 22 9 0x20123456789A) := by decide
theorem test_decode_retn : decodeWord 0b1111111111111111111111111111111111111111110110011010100100011110 =
    .ok (.retn 9 13) := by decide
theorem test_decode_pull : decodeWord 0b1000000001001000110100010101100111100010011010101100100100011111 =
    .ok (.pull 22 9) := by decide
theorem test_decode_ldb : decodeWord 0b1000000001001000110100010101100111100010011010101100100100100000 =
    .ok (.ldb 22 9 0x20123456789A) := by decide
theorem test_decode_ldh : decodeWord 0b1000000001001000110100010101100111100010011010101100100100100001 =
    .ok (.ldh 22 9 0x20123456789A) := by decide
theorem test_decode_ldw : decodeWord 0b1000000001001000110100010101100111100010011010101100100100100010 =
    .ok (.ldw 22 9 0x20123456789A) := by decide
theorem test_decode_ldd : decodeWord 0b1000000001001000110100010101100111100010011010101100100100100011 =
    .ok (.ldd 22 9 0x20123456789A) := by decide
theorem test_decode_stb : decodeWord 0b1000000001001000110100010101100111100010011010101100100100100100 =
    .ok (.stb 22 9 0x20123456789A) := by decide
theorem test_decode_sth : decodeWord 0b1000000001001000110100010101100111100010011010101100100100100101 =
    .ok (.sth 22 9 0x20123456789A) := by decide
theorem test_decode_stw : decodeWord 0b1000000001001000110100010101100111100010011010101100100100100110 =
    .ok (.stw 22 9 0x20123456789A) := by decide
theorem test_decode_std : decodeWord 0b1000000001001000110100010101100111100010011010101100100100100111 =
    .ok (.std 22 9 0x20123456789A) := by decide
theorem test_decode_jal : decodeWord 0b1000001001000110100010101100111100010011010101111000100100101000 =
    .ok (.jal 9 0x4123456789ABC) := by decide
theorem test_decode_jalr : decodeWord 0b1000000001001000110100010101100111100010011010101100100100101001 =
    .ok (.jalr 22 9 0x20123456789A) := by decide
theorem test_decode_je : decodeWord 0b1000000001001000110100010101100111100010011010101100100100101010 =
    .ok (.je 22 9 0x20123456789A) := by decide
theorem test_decode_jne : decodeWord 0b1000000001001000110100010101100111100010011010101100100100101011 =
    .ok (.jne 22 9 0x20123456789A) := by decide
theorem test_decode_jgu : decodeWord 0b1000000001001000110100010101100111100010011010101100100100101100 =
    .ok (.jgu 22 9 0x20123456789A) := by decide
theorem test_decode_jleu : decodeWord 0b1000000001001000110100010101100111100010011010101100100100101101 =
    .ok (.jleu 22 9 0x20123456789A) := by decide
theorem test_decode_undefined : decodeWord 0x1234567890ABCD2E = .error (.undefinedOpcode 0x2E) := by decide
theorem test_decodeTableWord : decodeTableWord 64 0x000000000028411C = some (.call 10 1 2) := by decide
theorem test_decodeTableWord_short : decodeTableWord 8 0xFFFFFFFFFFFFFF11 = some (.addi 0 0 0) := by decide

/-! ### Assembler text (95_test_vectors.md V235, V236, V239 and V140; 30_encoding.md R73, R74, R76) -/

theorem test_text_call : (Instr.call 10 1 2).text = "call r10, r01, r02" := by decide
theorem test_text_push : (Instr.push 1 5 (-4)).text = "push r01, r05, -4" := by decide
theorem test_text_jal : (Instr.jal 0 40).text = "jal r00, 40" := by decide
theorem test_text_retn : (Instr.retn 1 2).text = "retn r00, r01, r02" := by decide

/-! ### One step on each instruction (95_test_vectors.md sections 2.1 to 2.8) -/

theorem test_andr_V5 :
    completes (machineAt 0x100 [(4, 0xf0f0f0f00f0f0f0f), (5, 0xff00ff00ff00ff)] []) 0x10a400 0x108 [(4,
      0xf000f0000f000f)] [] = true := by
  decide
theorem test_andr_V22 :
    completes (machineAt 0x100 [(4, 0xf0f0f0f00f0f0f0f), (5, 0xff00ff00ff00ff)] []) 0xffffffffff8ca400 0x108 [(3,
      0xf000f0000f000f)] [] = true := by
  decide
theorem test_andi_V8 :
    completes (machineAt 0x100 [(4, 0xf0f0f0f00f0f0f0f)] []) 0xfffffffffc006401 0x108 [(3, 0xf0f0f0f00f0f0f00)]
      [] = true := by
  decide
theorem test_andi_V9 :
    completes (machineAt 0x100 [(4, 0xffffffffffffffff)] []) 0x7ffffffffffc6401 0x108 [(3, 0x1fffffffffff)]
      [] = true := by
  decide
theorem test_xorr_V12 :
    completes (machineAt 0x100 [(3, 0x5), (4, 0xf0f0f0f00f0f0f0f)] []) 0xc8402 0x108 [(3, 0x0)] [] = true := by
  decide
theorem test_xorr_V11 :
    completes (machineAt 0x100 [(4, 0xf0f0f0f00f0f0f0f), (5, 0xff00ff00ff00ff)] []) 0xca402 0x108 [(3,
      0xf00ff00f0ff00ff0)] [] = true := by
  decide
theorem test_xori_V13 :
    completes (machineAt 0x100 [(4, 0xf0f0f0f00f0f0f0f)] []) 0xfffffffffffc6403 0x108 [(3, 0xf0f0f0ff0f0f0f0)]
      [] = true := by
  decide
theorem test_orr_V15 :
    completes (machineAt 0x100 [(4, 0xf0f0f0f00f0f0f0f), (5, 0xff00ff00ff00ff)] []) 0xca404 0x108 [(3,
      0xf0fff0ff0fff0fff)] [] = true := by
  decide
theorem test_ori_V18 :
    completes (machineAt 0x100 [(4, 0xf0f0f0f00f0f0f0f)] []) 0xfffffffffffc6405 0x108 [(3, 0xffffffffffffffff)]
      [] = true := by
  decide
theorem test_not_V21 :
    completes (machineAt 0x100 [(4, 0x0), (9, 0x77)] []) 0xd2406 0x108 [(3, 0xffffffffffffffff)] [] = true := by
  decide
theorem test_cnt_V24 :
    completes (machineAt 0x100 [(3, 0x55), (4, 0xf0000000000000ff)] []) 0x46407 0x108 [(3, 0xb)] [] = true := by
  decide
theorem test_cnt_V33 :
    completes (machineAt 0x100 [(4, 0xffffffffffffffff)] []) 0x6407 0x108 [(3, 0x40)] [] = true := by
  decide
theorem test_llsr_V37 :
    completes (machineAt 0x100 [(3, 0x55), (4, 0x8000000000000001), (5, 0x3f)] []) 0xca408 0x108 [(3,
      0x8000000000000000)] [] = true := by
  decide
theorem test_llsr_V40 :
    completes (machineAt 0x100 [(3, 0x55), (4, 0x8000000000000001), (5, 0xffffffffffffffff)] []) 0xca408 0x108 [(3,
      0x0)] [] = true := by
  decide
theorem test_llsi_V61 :
    completes (machineAt 0x100 [(3, 0x55), (4, 0x8000000000000001)] []) 0xfc6409 0x108 [(3, 0x8000000000000000)]
      [] = true := by
  decide
theorem test_llsi_V63 :
    completes (machineAt 0x100 [(3, 0x55), (4, 0x8000000000000001)] []) 0xfffffffffffc6409 0x108 [(3, 0x0)]
      [] = true := by
  decide
theorem test_lrsr_V43 :
    completes (machineAt 0x100 [(3, 0x55), (4, 0x8000000000000001), (5, 0x3f)] []) 0xca40a 0x108 [(3, 0x1)]
      [] = true := by
  decide
theorem test_lrsr_V44 :
    completes (machineAt 0x100 [(3, 0x55), (4, 0x8000000000000001), (5, 0x40)] []) 0xca40a 0x108 [(3, 0x0)]
      [] = true := by
  decide
theorem test_lrsi_V65 :
    completes (machineAt 0x100 [(3, 0x55), (4, 0x8000000000000001)] []) 0x10640b 0x108 [(3, 0x800000000000000)]
      [] = true := by
  decide
theorem test_alsr_V48 :
    completes (machineAt 0x100 [(3, 0x55), (4, 0x8000000000000001), (5, 0x1)] []) 0xca40c 0x108 [(3, 0x2)]
      [] = true := by
  decide
theorem test_alsi_V70 :
    completes (machineAt 0x100 [(3, 0x55), (4, 0x8000000000000001)] []) 0x10640d 0x108 [(3, 0x10)] [] = true := by
  decide
theorem test_arsr_V55 :
    completes (machineAt 0x100 [(3, 0x55), (4, 0x8000000000000001), (5, 0x3f)] []) 0xca40e 0x108 [(3,
      0xffffffffffffffff)] [] = true := by
  decide
theorem test_arsr_V56 :
    completes (machineAt 0x100 [(3, 0x55), (4, 0x8000000000000001), (5, 0x40)] []) 0xca40e 0x108 [(3, 0x0)]
      [] = true := by
  decide
theorem test_arsi_V75 :
    completes (machineAt 0x100 [(3, 0x55), (4, 0x8000000000000001)] []) 0x10640f 0x108 [(3, 0xf800000000000000)]
      [] = true := by
  decide
theorem test_arsi_V79 :
    completes (machineAt 0x100 [(4, 0x7f00000000000000)] []) 0x20640f 0x108 [(3, 0x7f000000000000)] [] = true := by
  decide
theorem test_addr_V83 :
    completes (machineAt 0x100 [(4, 0xffffffffffffffff), (5, 0x1)] []) 0xca410 0x108 [(3, 0x0)] [] = true := by
  decide
theorem test_addi_V87 :
    completes (machineAt 0x100 [(4, 0x0)] []) 0xfffffffffffc6411 0x108 [(3, 0xffffffffffffffff)] [] = true := by
  decide
theorem test_subr_V91 :
    completes (machineAt 0x100 [(4, 0x3), (5, 0xa)] []) 0xca412 0x108 [(3, 0xfffffffffffffff9)] [] = true := by
  decide
theorem test_subi_V94 :
    completes (machineAt 0x100 [(4, 0xa)] []) 0xffffffffffec6413 0x108 [(3, 0xf)] [] = true := by
  decide
theorem test_umulr_V96 :
    completes (machineAt 0x100 [(4, 0xffffffffffffffff), (5, 0xffffffffffffffff)] []) 0xca414 0x108 [(3, 0x1)]
      [] = true := by
  decide
theorem test_umuli_V99 :
    completes (machineAt 0x100 [(4, 0x5)] []) 0xfffffffffffc6415 0x108 [(3, 0xfffffffffffffffb)] [] = true := by
  decide
theorem test_smulr_V100 :
    completes (machineAt 0x100 [(4, 0xfffffffffffffffd), (5, 0x7)] []) 0xca416 0x108 [(3, 0xffffffffffffffeb)]
      [] = true := by
  decide
theorem test_smuli_V103 :
    completes (machineAt 0x100 [(4, 0x15)] []) 0xfffffffffff86417 0x108 [(3, 0xffffffffffffffd6)] [] = true := by
  decide
theorem test_udivr_V108 :
    completes (machineAt 0x100 [(4, 0xfffffffffffffff9), (5, 0x2)] []) 0xca418 0x108 [(3, 0x7ffffffffffffffc)]
      [] = true := by
  decide
theorem test_udivr_V109 :
    traps (runs (machineAt 0x100 [(3, 0x55), (4, 0x64), (5, 0x0)] []) 0xca418) (.divisionByZero) 0 0x100 = true := by
  decide
theorem test_udivi_V112 :
    completes (machineAt 0x100 [(4, 0xffffffffffffffff)] []) 0xfffffffffffc6419 0x108 [(3, 0x1)] [] = true := by
  decide
theorem test_udivi_V114 : traps (runs (machineAt 0x100 [] []) 0x19) (.divisionByZero) 0 0x100 = true := by decide
theorem test_sdivr_V116 :
    completes (machineAt 0x100 [(4, 0xfffffffffffffff9), (5, 0x2)] []) 0xca41a 0x108 [(3, 0xfffffffffffffffd)]
      [] = true := by
  decide
theorem test_sdivr_V122 :
    completes (machineAt 0x100 [(4, 0x8000000000000000), (5, 0xffffffffffffffff)] []) 0xca41a 0x108 [(3,
      0x8000000000000000)] [] = true := by
  decide
theorem test_sdivi_V125 :
    completes (machineAt 0x100 [(4, 0x64)] []) 0xffffffffffe0641b 0x108 [(3, 0xfffffffffffffff4)] [] = true := by
  decide
theorem test_sdivi_V127 :
    traps (runs (machineAt 0x100 [(4, 0xfffffffffffffff6)] []) 0x641b) (.divisionByZero) 0 0x100 = true := by
  decide
theorem test_call_V133 :
    completes (machineAt 0x100 [(1, 0x400), (2, 0x3f0)] []) 0x4411c 0x410 [(1, 0x410), (2, 0x410)] [(0x400,
      .double, 0x3f0), (0x408, .double, 0x108)] = true := by
  decide
theorem test_call_V131 :
    traps (runs (machineAt 0x100 [(1, 0x1ff8), (2, 0x3f0), (10, 0x80)] []) 0x28411c) (.memoryRange 0x2000 .double)
      4 0x100 = true := by
  decide
theorem test_push_V135 :
    completes (machineAt 0x100 [(1, 0x400), (3, 0xffffffffffffffff)] []) 0x14231d 0x108 [(1, 0x408)] [(0x400,
      .double, 0x4)] = true := by
  decide
theorem test_push_V137 :
    completes (machineAt 0x100 [(1, 0x400)] []) 0x211d 0x108 [(1, 0x408)] [(0x400, .double, 0x400)] = true := by
  decide
theorem test_retn_V140 :
    completes (machineAt 0x100 [(1, 0x410), (2, 0x410)] [(0x400, .double, 0x3f0), (0x408, .double, 0x108)]) 0x411e
      0x108 [(1, 0x400), (2, 0x3f0)] [] = true := by
  decide
theorem test_retn_V143 :
    completes (machineAt 0x100 [(1, 0x410)] [(0x400, .double, 0x3f0), (0x408, .double, 0x108), (0x3f8, .double,
      0x200)]) 0x211e 0x200 [(1, 0x3f0)] [] = true := by
  decide
theorem test_pull_V150 :
    completes (machineAt 0x100 [(1, 0x408)] [(0x400, .double, 0x99)]) 0x211f 0x108 [(1, 0x91)] [] = true := by
  decide
theorem test_pull_V151 :
    traps (runs (machineAt 0x100 [(1, 0x0), (3, 0x5)] []) 0x611f) (.memoryRange 0xFFFFFFFFFFFFFFF8 .double) 4
      0x100 = true := by
  decide
theorem test_ldb_V153 :
    completes (machineAt 0x100 [(4, 0x300)] [(0x300, .double, 0x8877665544332211)]) 0x1c6420 0x108 [(3, 0x88)]
      [] = true := by
  decide
theorem test_ldb_V169 :
    traps (runs (machineAt 0x100 [(3, 0x55), (4, 0x0)] []) 0xfffffffffffc6420) (.memoryRange 0xFFFFFFFFFFFFFFFF
      .byte) 4 0x100 = true := by
  decide
theorem test_ldh_V155 :
    completes (machineAt 0x100 [(4, 0x300)] [(0x300, .double, 0x8877665544332211)]) 0x1c6421 0x108 [(3, 0x88)]
      [] = true := by
  decide
theorem test_ldh_V165 :
    traps (runs (machineAt 0x100 [(3, 0x55), (4, 0x1fff)] []) 0x6421) (.memoryRange 0x1FFF .half) 4 0x100 = true := by
  decide
theorem test_ldw_V156 :
    completes (machineAt 0x100 [(4, 0x300)] [(0x300, .double, 0x8877665544332211)]) 0x106422 0x108 [(3,
      0x88776655)] [] = true := by
  decide
theorem test_ldd_V161 :
    completes (machineAt 0x100 [(4, 0x300)] [(0x300, .double, 0x8877665544332211)]) 0x8423 0x108 [(4,
      0x8877665544332211)] [] = true := by
  decide
theorem test_ldd_V168 :
    completes (machineAt 0x100 [(3, 0x55), (4, 0xfffffffffffffff8)] []) 0x406423 0x108 [(3, 0x0)] [] = true := by
  decide
theorem test_stb_V170 :
    completes (machineAt 0x100 [(5, 0x300), (3, 0x1122334455667788)] []) 0xa324 0x108 [] [(0x300, .byte,
      0x88)] = true := by
  decide
theorem test_stb_V181 :
    completes (machineAt 0x100 [(5, 0x1fff), (3, 0x1122334455667788)] []) 0xa324 0x108 [] [(0x1fff, .byte,
      0x88)] = true := by
  decide
theorem test_sth_V175 :
    completes (machineAt 0x100 [(5, 0x300), (3, 0x1122334455667788)] []) 0xca325 0x108 [] [(0x303, .half,
      0x7788)] = true := by
  decide
theorem test_stw_V172 :
    completes (machineAt 0x100 [(5, 0x300), (3, 0x1122334455667788)] []) 0xa326 0x108 [] [(0x300, .word,
      0x55667788)] = true := by
  decide
theorem test_std_V174 :
    completes (machineAt 0x100 [(5, 0x310), (3, 0x1122334455667788)] []) 0xffffffffffc0a327 0x108 [] [(0x300,
      .double, 0x1122334455667788)] = true := by
  decide
theorem test_std_V179 :
    traps (runs (machineAt 0x100 [(5, 0x1ff9), (3, 0x1122334455667788)] []) 0xa327) (.memoryRange 0x1FF9 .double) 4
      0x100 = true := by
  decide
theorem test_jal_V183 : completes (machineAt 0x100 [] []) 0xfffffffffffe0328 0xf0 [(3, 0x108)] [] = true := by decide
theorem test_jal_V186 : completes (machineAt 0x100 [] []) 0x6328 0x103 [(3, 0x108)] [] = true := by decide
theorem test_jalr_V193 : completes (machineAt 0x100 [(3, 0x40)] []) 0x6329 0x208 [(3, 0x108)] [] = true := by decide
theorem test_jalr_V191 :
    completes (machineAt 0x100 [(4, 0xffffffffffffff00)] []) 0x6429 0x0 [(3, 0x108)] [] = true := by
  decide
theorem test_je_V194 : completes (machineAt 0x100 [(3, 0x5), (4, 0x5)] []) 0x10642a 0x120 [] [] = true := by decide
theorem test_je_V218 :
    completes (machineAt 0x100 [(3, 0x1), (4, 0x1)] []) 0xfffffffffff8642a 0xf0 [] [] = true := by
  decide
theorem test_jne_V201 : completes (machineAt 0x100 [(3, 0x5), (4, 0x7)] []) 0x10642b 0x120 [] [] = true := by decide
theorem test_jne_V220 : completes (machineAt 0x100 [(3, 0x9)] []) 0xfffffffffffc602b 0xf8 [] [] = true := by decide
theorem test_jgu_V209 :
    completes (machineAt 0x100 [(3, 0x8000000000000000), (4, 0x1)] []) 0x10642c 0x120 [] [] = true := by
  decide
theorem test_jgu_V206 : completes (machineAt 0x100 [(3, 0x5), (4, 0x5)] []) 0x10642c 0x108 [] [] = true := by decide
theorem test_jleu_V212 : completes (machineAt 0x100 [(3, 0x5), (4, 0x5)] []) 0x10642d 0x120 [] [] = true := by decide
theorem test_jleu_V215 :
    completes (machineAt 0x100 [(3, 0x8000000000000000), (4, 0x1)] []) 0x10642d 0x108 [] [] = true := by
  decide

/-! ### Fetch, halt and undefined words (95_test_vectors.md section 2.9; 70_reset_and_hazards.md R203; 30_encoding.md R70) -/

theorem test_fetch_V225 : traps (runs (machineAt 0x100 [] []) 0x2e) (.invalidInstruction 0x2E) 4 0x100 = true := by decide
theorem test_fetch_V230 : traps (step (machineAt 0x1ff9 [] [])) (.memoryRange 0x1FF9 .double) 4 0x1FF9 = true := by decide
theorem test_fetch_V234 : completes (machineAt 0x103 [] []) 0x46011 0x10b [(3, 0x1)] [] = true := by decide
theorem test_step_from_reset : nextWith (runs State.reset 0x46011) (fun t => t.pc == 8 && t.readReg 3 == 1) = true := by
  decide
theorem test_halt : (match step (machineAt 0xFFFFFFFFFFFFFFFF [] []) with
    | .fault f => decide (f = .halted 0xFFFFFFFFFFFFFFFF) | _ => false) = true := by decide

/-! ### The readings the default parameters do not take (40_group0_bitwise.md R88; 44_group2_jumps.md R148, R150, R151) -/

theorem test_cnt_pseudocode : nextWith (runs (under { small with cntReading := .pseudocode }
    (machineAt 0x100 [(4, 0xF0000000000000FF)] [])) 0x0000000000FC6407) (fun t => t.readReg 3 == 11) = true := by
  decide
theorem test_je_pseudocode : nextWith (runs (under { small with branchReading := .pseudocode }
    (machineAt 0x100 [(3, 5), (4, 5)] [])) 0x000000000010642A) (fun t => t.pc == 0x108) = true := by decide
theorem test_jgu_pseudocode : nextWith (runs (under { small with branchReading := .pseudocode }
    (machineAt 0x100 [(3, 0x8000000000000000), (4, 1)] [])) 0x000000000010642C) (fun t => t.pc == 0x120) = true := by
  decide
theorem test_jleu_pseudocode : (match runs (under { small with branchReading := .pseudocode }
    (machineAt 0x100 [] [])) 0x000000000010642D with
    | .refused r => decide (r = .unrecoverableReading) | _ => false) = true := by decide
theorem test_big_endian : nextWith (exec (.ldh 3 4 0) (under { small with byteOrder := .big }
    (machineAt 0x100 [(4, 0x300)] [(0x300, .byte, 0x11), (0x301, .byte, 0x22)])))
    (fun t => t.readReg 3 == 0x1122) = true := by decide
theorem test_zero_extension : nextWith (exec (.addi 3 0 0x3FFFFFFFFFFF) (under { small with immExt := .zero }
    (machineAt 0x100 [] []))) (fun t => t.readReg 3 == 0x3FFFFFFFFFFF) = true := by decide

/-! ### Program calls (45_pcall.md, "Worked cases": r31 = 0xDEAD and r30 = 0xBEEF before) -/

/-- The state before a worked case, with the group and the function. -/
def beforePcall (c : Config) (space function : Word) : State :=
  under c (machineAt 0x100 [(28, function), (29, space), (30, 0xBEEF), (31, 0xDEAD)] [])

/-- The state right after a `pcall -1` that changes the registers given. -/
def afterPcall (c : Config) (space function : Word) (rs : List (Reg × Word)) : Bool :=
  nextWith (processorInterface (beforePcall c space function)) fun t =>
    decide (t = changed (beforePcall c space function) 0x108 rs [])

theorem test_pcall_0_0 : afterPcall small 0 0 [(31, 0)] = true := by decide
theorem test_pcall_0_1 : afterPcall small 0 1 [] = true := by decide
theorem test_pcall_1_0 : afterPcall small 1 0 [(31, 0)] = true := by decide
theorem test_pcall_1_1 : afterPcall small 1 1 [] = true := by decide
theorem test_pcall_2_0 : afterPcall small 2 0 [(31, 0)] = true := by decide
theorem test_pcall_3_0 : afterPcall small 3 0 [(31, 0)] = true := by decide
theorem test_pcall_77_0 : afterPcall small 77 0 [(31, 0)] = true := by decide
theorem test_pcall_2_1 : (match processorInterface (beforePcall small 2 1) with
    | .refused r => decide (r = .undefinedFunction 2 1) | _ => false) = true := by decide
theorem test_pcall_0_2 : (match processorInterface (beforePcall small 0 2) with
    | .refused r => decide (r = .undefinedFunction 0 2) | _ => false) = true := by decide
theorem test_pcall_vector_check :
    afterPcall { small with ivMode := .anywhere, ivCount := 256 } 0 0 [(31, 2), (30, 256)] = true := by decide
theorem test_pcall_vector_enable : nextWith (processorInterface (beforePcall { small with ivMode := .anywhere } 0 1))
    (fun t => t.ivr == some 0xDEAD && t.pc == 0x108) = true := by decide
theorem test_pcall_paging_enable : nextWith (processorInterface (beforePcall { small with pageLevels := 4 } 1 1))
    (fun t => t.paging == some 0xBEEF && t.pc == 0x108) = true := by decide
theorem test_pcall_word : traps (runs (under { small with pcallEncoding := some ownersPcall } (machineAt 0x100 [] []))
    0xFFFFFFFFFFFFC080) (.programCall 0x7FFFFFFFFFFFE) 0x7FFFFFFFFFFFE 0x100 = true := by decide

/-! ### What a program must do first (70_reset_and_hazards.md R202) -/

theorem test_boot_stack_room : StackRoom (machineAt 0x100 [(1, 0x1FD8)] []) 1 2 1 ∧
    ¬ StackRoom (machineAt 0x100 [(1, 0x1FD9)] []) 1 2 1 := by decide
theorem test_boot_set_up : ¬ SetUp [] (.xorr 5 5 5) ∧ SetUp [] (.andr 5 0 0) ∧ SetUp [1, 2] (.call 0 1 2) ∧
    ¬ SetUp [1] (.call 0 1 2) ∧ SetUp [1] (.retn 1 2) := by
  refine ⟨?_, ?_, ?_, ?_, ?_⟩ <;> decide
theorem test_boot_vector : (vectorSetUp .anywhere).map (fun c => goesOn (processorInterface
    (beforePcall { small with ivMode := .anywhere } c.1 c.2))) = [true, true] ∧ vectorSetUp .impossible = [] := by decide

/-! ### Witnesses: the hypotheses of each statement can be met, clause by clause, at the ends of their ranges -/

/-- An ordinary state: registers r3 to r5 hold 5, 2 and 0x300, the stack pointer r1 0x400. -/
def plain : State := machineAt 0x100 [(1, 0x400), (2, 0x3F0), (3, 5), (4, 2), (5, 0x300)] []

/-- `plain` with `addi r03, r00, 1` at the pc. -/
def placed : State := plain.withFetchWord 64 0x46011

theorem witness_EncodeOfDecodeIsTheCanonicalWord :
    decodeWord 0xFFFFFFFFFF8CA400 = .ok (.andr 3 4 5) ∧ decodeWord 0xFFFFFFFFFF8D2406 = .ok (.not 3 4) ∧
      decodeWord 0xFFFFFFFFFFA4411E = .ok (.retn 1 2) ∧ decodeWord 0x00000000C0E4611F = .ok (.pull 3 1) ∧
      decodeWord 0xFFFFFFFFFFFE0328 = .ok (.jal 3 (-16)) := by decide

theorem witness_IgnoredBitsHaveNoEffect :
    (decodeWord 0x00000000000CA400 = .ok (.andr 3 4 5) ∧
      (0x00000000000CA400 : Word) &&& usedBits (.andr 3 4 5) = 0xFFFFFFFFFF8CA400 &&& usedBits (.andr 3 4 5)) ∧
    (decodeWord 0x00000000000C0406 = .ok (.not 3 4) ∧
      (0x00000000000C0406 : Word) &&& usedBits (.not 3 4) = 0x00000000000D2406 &&& usedBits (.not 3 4)) ∧
    (decodeWord 0x000000000000411E = .ok (.retn 1 2) ∧
      (0x000000000000411E : Word) &&& usedBits (.retn 1 2) = 0x000000000024411E &&& usedBits (.retn 1 2)) ∧
    (decodeWord 0x000000000000611F = .ok (.pull 3 1) ∧
      (0x000000000000611F : Word) &&& usedBits (.pull 3 1) = 0x00000000C0E4611F &&& usedBits (.pull 3 1)) := by decide

theorem witness_ExactlyTheTableOpcodesDecode :
    (0xFFFFFFFFFFFFFF00 : Word).toNat % 256 ≤ 0x2D ∧ (0x2D : Word).toNat % 256 ≤ 0x2D ∧
      0x2D < (0x2E : Word).toNat % 256 ∧ 0x2D < (0xFF : Word).toNat % 256 := by decide

theorem witness_ImmediateFieldsAreWidened :
    plain.cfg.immExt = .sign ∧ (under { small with immExt := .zero } plain).cfg.immExt = .zero ∧
      (0x1FFFFFFFFFFF : ImmS).toNat < 2 ^ 45 ∧ ¬ (0x200000000000 : ImmS).toNat < 2 ^ 45 ∧
      (0x3FFFFFFFFFFFF : ImmL).toNat < 2 ^ 50 ∧ ¬ (0x4000000000000 : ImmL).toNat < 2 ^ 50 := by decide

theorem witness_EightBytesDecodeLikeTheirWord :
    ([] : List Byte).length < 8 ∧ ([1, 2, 3, 4, 5, 6, 7] : List Byte).length < 8 := by decide

theorem witness_AccessesCompleteExactlyInRange :
    (Permitted plain 0x1FF8 .double ∧ InRange plain 0x1FF8 .double) ∧
    (Permitted plain 0x1FF9 .double ∧ ¬ InRange plain 0x1FF9 .double) ∧
    (Permitted plain 0x1FFF .byte ∧ InRange plain 0x1FFF .byte) ∧
    (Permitted plain 0x2000 .byte ∧ ¬ InRange plain 0x2000 .byte) ∧
    (Permitted plain 0xFFFFFFFFFFFFFFFF .word ∧ ¬ InRange plain 0xFFFFFFFFFFFFFFFF .word) := by decide

theorem witness_WrittenCellReadsBack :
    Accessible plain 0x1FF8 .double ∧ Accessible plain 0x303 .half ∧
      Accessible (under { small with byteOrder := .big } plain) 0x303 .word := by decide

theorem witness_EqualReadsMakeEqualMemories :
    Memory.wf (Memory.write (Memory.write [] 5 1) 3 2) = true ∧ Memory.wf (Memory.write (Memory.write [] 3 2) 5 1) = true ∧
      ∀ a, Memory.read (Memory.write (Memory.write [] 5 1) 3 2) a = Memory.read (Memory.write (Memory.write [] 3 2) 5 1) a :=
  ⟨by decide, by decide, fun _ => rfl⟩

theorem witness_StepKeepsTheInvariant : Inv placed ∧ ∃ t, step placed = .next t :=
  ⟨by decide, exists_next (by decide)⟩

theorem witness_StartOfRunSatisfiesTheInvariant :
    Memory.wf [(0x1FFF, 1)] = true ∧ Memory.below small.memSize [(0x1FFF, 1)] = true ∧
      (Vector.replicate 32 (0 : Word))[0] = 0 := by decide

theorem witness_StepKeepsParametersAndNesting : ∃ t, step placed = .next t := exists_next (by decide)

theorem witness_WithoutPcallSystemStateIsConstant : placed.cfg.pcallEncoding = none ∧ ∃ t, step placed = .next t :=
  ⟨by decide, exists_next (by decide)⟩

theorem witness_OtherInstructionsNeverTouchMemory :
    accessesMemory (.addr 3 4 5) = false ∧ accessesMemory (.udivi 3 4 0) = false ∧ accessesMemory (.jal 3 8) = false := by
  decide

theorem witness_DivisionByZeroExactlyOnZeroDivisors :
    divisor? plain (.udivr 3 4 0) = some 0 ∧ divisor? plain (.sdivr 3 4 6) = some 0 ∧
      divisor? plain (.udivi 3 4 0) = some 0 ∧ divisor? plain (.sdivi 3 4 0) = some 0 ∧
      divisor? plain (.udivr 3 4 5) ≠ some 0 ∧ divisor? plain (.addr 3 4 0) ≠ some 0 := by decide

theorem witness_FaultsOfInstructionsAreTheseTwo :
    exec (.udivi 3 4 0) plain = .fault (.trap .divisionByZero 0 0x100) ∧
      exec (.ldb 3 0 0x2000) plain = .fault (.trap (.memoryRange 0x2000 .byte) 4 0x100) := ⟨rfl, rfl⟩

theorem witness_NoInstructionIsRefusedAtTheDefaults :
    plain.paging = none ∧ plain.cfg.alignRequired = false ∧ plain.cfg.branchReading = .prose := by decide

theorem witness_SequentialInstructionsAdvanceByEight :
    (transfersControl (.addi 3 4 1) = false ∧ ∃ t, exec (.addi 3 4 1) plain = .next t) ∧
      (transfersControl (.push 1 3 0) = false ∧ ∃ t, exec (.push 1 3 0) plain = .next t) :=
  ⟨⟨rfl, exists_next (by decide)⟩, ⟨rfl, exists_next (by decide)⟩⟩

theorem witness_StepRunsTheDecodedInstruction :
    placed.pc ≠ placed.cfg.haltPc ∧ Accessible placed placed.pc .double ∧
      decodeBytes placed.cfg.byteOrder (placed.mem.readBytes placed.pc.toNat 8) = .ok (.addi 3 0 1, []) := by decide

theorem witness_StepStopsBeforeExecuting_halt :
    (machineAt 0xFFFFFFFFFFFFFFFF [] []).pc = (machineAt 0xFFFFFFFFFFFFFFFF [] []).cfg.haltPc := by decide

theorem witness_StepStopsBeforeExecuting_range :
    (plain.setPc 0x1FF9).pc ≠ (plain.setPc 0x1FF9).cfg.haltPc ∧
      Permitted (plain.setPc 0x1FF9) (plain.setPc 0x1FF9).pc .double ∧
      ¬ InRange (plain.setPc 0x1FF9) (plain.setPc 0x1FF9).pc .double := by decide

/-- The first undefined opcode at the pc, with and without an opcode given to pcall. -/
theorem witness_StepStopsBeforeExecuting_opcode :
    (memRead (plain.withFetchWord 64 0x2E) 0x100 .double = .next 0x2E ∧ 0x2D < (0x2E : Word).toNat % 256 ∧
      (plain.withFetchWord 64 0x2E).pc ≠ (plain.withFetchWord 64 0x2E).cfg.haltPc ∧
      (plain.withFetchWord 64 0x2E).cfg.pcallEncoding = none) ∧
    ownersPcall.opcode.toNat ≠ (0x2E : Word).toNat % 256 := by
  refine ⟨⟨?_, ?_⟩, ?_⟩
  · rfl
  · decide
  · decide

theorem witness_FetchSeesThePrecedingStore :
    plain.effAddr 0 0x108 = plain.pc + 8 ∧ Accessible plain (plain.pc + 8) .double := by decide

/-- `plain` where 0x80 is the opcode of pcall, with a word of it at the pc. -/
def withPcall : State := (under { small with pcallEncoding := some ownersPcall } plain).withFetchWord 64 0xC080

theorem witness_OwnersPcallEncodingIsRun :
    withPcall.cfg.pcallEncoding = some ownersPcall ∧ withPcall.pc ≠ withPcall.cfg.haltPc ∧
      memRead withPcall withPcall.pc .double = .next 0xC080 ∧ ownersPcall.opcode.toNat = (0xC080 : Word).toNat % 256 ∧
      0x2D < (0xC080 : Word).toNat % 256 :=
  ⟨rfl, by decide, rfl, by decide, by decide⟩

theorem witness_CntCountsBelowTheExcludedBits :
    64 ≤ (plain.immS 64).toNat ∧ (plain.immS 63).toNat < 64 ∧ plain.cfg.cntReading = .prose ∧
      (under { small with cntReading := .pseudocode } plain).cfg.cntReading = .pseudocode := by decide

theorem witness_UnsignedDivideResults :
    plain.readReg 6 = 0 ∧ plain.readReg 4 ≠ 0 ∧ plain.immS 0 = 0 ∧ plain.immS 0x3FFFFFFFFFFF ≠ 0 := by decide

theorem witness_SignedDivideResults :
    plain.readReg 6 = 0 ∧ plain.readReg 4 ≠ 0 ∧ plain.immS 0 = 0 ∧ plain.immS 0x3FFFFFFFFFFF ≠ 0 := by decide

theorem witness_CallPushesFrameAndReturnAddress :
    let s := machineAt 0x100 [(1, 0x1FF0), (3, 0x1FF8), (4, 0x2000)] []
    (Accessible s (s.readReg 1) .double ∧ Accessible s (s.readReg 1 + 8) .double) ∧
    (Accessible s (s.readReg 3) .double ∧ Permitted s (s.readReg 3 + 8) .double ∧
      ¬ InRange s (s.readReg 3 + 8) .double) ∧
    (Permitted s (s.readReg 4) .double ∧ ¬ InRange s (s.readReg 4) .double) := by decide

theorem witness_PushStoresAndRaisesTheStackPointer :
    let s := machineAt 0x100 [(1, 0x1FF8), (2, 0x1FF9)] []
    Accessible s (s.readReg 1) .double ∧ (Permitted s (s.readReg 2) .double ∧ ¬ InRange s (s.readReg 2) .double) := by
  decide

/-- `retn` with the saved frame pointer 0x1FF0 at 0x400, so that `retn r00, r01, r01` reads its return address at 0x1FF8. -/
theorem witness_RetnRestoresFrameAndJumpsBack :
    let s := machineAt 0x100 [(1, 0x2000), (3, 0x410), (4, 8), (5, 0x2008)] [(0x400, .double, 0x1FF8)]
    (Accessible s (s.readReg 1 - 16) .double ∧ Accessible s (s.readReg 1 - 16 + 8) .double) ∧
    (Permitted s (s.readReg 4 - 16) .double ∧ ¬ InRange s (s.readReg 4 - 16) .double) ∧
    (Accessible s (s.readReg 5 - 16) .double ∧ Permitted s (s.readReg 5 - 16 + 8) .double ∧
      ¬ InRange s (s.readReg 5 - 16 + 8) .double) ∧
    (Accessible s (s.readReg 3 - 16) .double ∧
      Permitted s (BitVec.ofNat 64 (cellValue s (s.readReg 3 - 16).toNat 8) + 8) .double ∧
      ¬ InRange s (BitVec.ofNat 64 (cellValue s (s.readReg 3 - 16).toNat 8) + 8) .double) ∧
    (Accessible s 0 .double ∧ Accessible s (0 + 8) .double) := by decide

theorem witness_PullLoadsAndLowersTheStackPointer :
    let s := machineAt 0x100 [(1, 0x2000), (2, 0)] []
    Accessible s (s.readReg 1 - 8) .double ∧
      (Permitted s (s.readReg 2 - 8) .double ∧ ¬ InRange s (s.readReg 2 - 8) .double) := by decide

/-- The frame right after the call: `u` is `t` itself. -/
theorem witness_CallThenRetnRestoresTheCaller :
    ∃ t, exec (.call 5 1 2) plain = .next t ∧ (1 : Reg) ≠ 0 ∧ (1 : Reg) ≠ 2 :=
  (exists_next (o := exec (.call 5 1 2) plain) (by decide)).imp fun _ h => ⟨h, by decide, by decide⟩

theorem witness_PushThenPullRestores : ∃ t, exec (.push 1 3 5) plain = .next t ∧ (1 : Reg) ≠ 0 ∧ (6 : Reg) ≠ 1 :=
  (exists_next (o := exec (.push 1 3 5) plain) (by decide)).imp fun _ h => ⟨h, by decide, by decide⟩

/-- Base r0 and immediates at the last cell inside memory and the first outside, for each width. -/
theorem witness_LoadResults :
    (Accessible plain (plain.readReg 0 + plain.immS 0x1FFF) .byte ∧
      Permitted plain (plain.readReg 0 + plain.immS 0x2000) .byte ∧
      ¬ InRange plain (plain.readReg 0 + plain.immS 0x2000) .byte) ∧
    (Accessible plain (plain.readReg 0 + plain.immS 0x1FFE) .half ∧
      Permitted plain (plain.readReg 0 + plain.immS 0x1FFF) .half ∧
      ¬ InRange plain (plain.readReg 0 + plain.immS 0x1FFF) .half) ∧
    (Accessible plain (plain.readReg 0 + plain.immS 0x1FFC) .word ∧
      Permitted plain (plain.readReg 0 + plain.immS 0x1FFD) .word ∧
      ¬ InRange plain (plain.readReg 0 + plain.immS 0x1FFD) .word) ∧
    (Accessible plain (plain.readReg 0 + plain.immS 0x1FF8) .double ∧
      Permitted plain (plain.readReg 0 + plain.immS 0x1FF9) .double ∧
      ¬ InRange plain (plain.readReg 0 + plain.immS 0x1FF9) .double) := by decide

/-- Base r5 = 0x300 and immediates at the last cell inside memory and the first outside, for each width. -/
theorem witness_StoreResults :
    (Accessible plain (plain.readReg 5 + plain.immS 0x1CFF) .byte ∧
      Permitted plain (plain.readReg 5 + plain.immS 0x1D00) .byte ∧
      ¬ InRange plain (plain.readReg 5 + plain.immS 0x1D00) .byte) ∧
    (Accessible plain (plain.readReg 5 + plain.immS 0x1CFE) .half ∧
      Permitted plain (plain.readReg 5 + plain.immS 0x1CFF) .half ∧
      ¬ InRange plain (plain.readReg 5 + plain.immS 0x1CFF) .half) ∧
    (Accessible plain (plain.readReg 5 + plain.immS 0x1CFC) .word ∧
      Permitted plain (plain.readReg 5 + plain.immS 0x1CFD) .word ∧
      ¬ InRange plain (plain.readReg 5 + plain.immS 0x1CFD) .word) ∧
    (Accessible plain (plain.readReg 5 + plain.immS 0x1CF8) .double ∧
      Permitted plain (plain.readReg 5 + plain.immS 0x1CF9) .double ∧
      ¬ InRange plain (plain.readReg 5 + plain.immS 0x1CF9) .double) := by decide

theorem witness_EqualityJumpResults :
    plain.cfg.branchReading = .prose ∧
      (under { small with branchReading := .pseudocode } plain).cfg.branchReading = .pseudocode := by decide

theorem witness_UnsignedOrderJumpResults :
    plain.cfg.branchReading = .prose ∧
      (under { small with branchReading := .pseudocode } plain).cfg.branchReading = .pseudocode := by decide

theorem witness_ExactlyOneOfJguAndJleuIsTaken :
    plain.cfg.branchReading = .prose ∧ plain.pc + plain.immS 0 * 8 ≠ plain.pc + 8 := by decide

theorem witness_ConditionalJumpsKeepThePcAligned :
    plain.pc.toNat % 8 = 0 ∧ (∃ t, exec (.je 3 3 4) plain = .next t) ∧ (∃ t, exec (.jne 3 4 4) plain = .next t) ∧
      (∃ t, exec (.jgu 3 4 4) plain = .next t) ∧ ∃ t, exec (.jleu 4 3 4) plain = .next t :=
  ⟨by decide, exists_next (by decide), exists_next (by decide), exists_next (by decide), exists_next (by decide)⟩

theorem witness_InterruptVectorCheckReports :
    (beforePcall small 0 0).readReg 29 = 0 ∧ (beforePcall small 0 0).readReg 28 = 0 := by decide

theorem witness_InterruptVectorEnableSetsTheRegister :
    (beforePcall small 0 1).readReg 29 = 0 ∧ (beforePcall small 0 1).readReg 28 = 1 := by decide

theorem witness_PagingCheckAndEnable :
    ((beforePcall small 1 0).readReg 29 = 1 ∧ (beforePcall small 1 0).readReg 28 = 0) ∧
      ((beforePcall small 1 1).readReg 29 = 1 ∧ (beforePcall small 1 1).readReg 28 = 1) := by decide

theorem witness_OtherProcessorFunctions :
    ((beforePcall small 2 0).readReg 29 = 2 ∧ (beforePcall small 2 0).readReg 28 = 0) ∧
      (3 ≤ ((beforePcall small 3 0).readReg 29).toNat ∧ (beforePcall small 3 0).readReg 28 = 0) ∧
      2 ≤ ((beforePcall small 0 2).readReg 28).toNat ∧
      ((beforePcall small 2 1).readReg 28 = 1 ∧ 2 ≤ ((beforePcall small 2 1).readReg 29).toNat) := by decide

theorem witness_ProcessorInterfacePreserves : ∃ t, processorInterface (beforePcall small 0 0) = .next t :=
  exists_next (by decide)

theorem witness_ProgramCallsRaiseTheirNumber :
    (0x7FFFFFFFFFFFF : InterruptNumber).toInt = -1 ∧ (0 : InterruptNumber).toInt ≠ -1 ∧
      (0x7FFFFFFFFFFFE : InterruptNumber).toInt ≠ -1 := by decide

/-- A state in which paging has been enabled. -/
def paged : State := { plain with paging := some 0x1000 }

theorem witness_PagingEnabledRefusesEveryAccess : paged.paging = some 0x1000 ∧ paged.pc ≠ paged.cfg.haltPc := by decide

/-- `plain` where accesses have to be aligned. -/
def strict : State := under { small with alignRequired := true } plain

theorem witness_RequiredAlignmentRefusesMisalignedAccesses :
    (strict.paging = none ∧ strict.cfg.alignRequired = true ∧ (0x301 : Word).toNat % Width.half.bytes ≠ 0) ∧
      ((strict.setPc 0x104).pc ≠ (strict.setPc 0x104).cfg.haltPc ∧ (strict.setPc 0x104).pc.toNat % 8 ≠ 0) ∧
      (plain.paging = none ∧ plain.cfg.alignRequired = false) ∧
      (InRange plain 0x1FF8 .double ∧ InRange plain 0x1FF7 .double ∧ (0x1FF7 : Word).toNat % Width.double.bytes ≠ 0) ∧
      (¬ InRange plain 0x1FF9 .double ∧ ¬ InRange plain 0x2000 .double) := by decide

theorem witness_PlacedWordIsRunNext : plain.pc ≠ plain.cfg.haltPc ∧ Accessible plain plain.pc .double := by decide

end Sys2Proof.Tests
end

section
/-! PROOFS. The state family (10_state.md): what an instruction and a step can change, and the statements that follow. -/

namespace Sys2Proof.Machine

/-! ### What the updates of the state keep of the invariant -/

section Invariant

variable {s : State}

theorem Inv.setPc (h : Inv s) (p : Word) : Inv (s.setPc p) := h

theorem Inv.writeReg (h : Inv s) (r : Reg) (v : Word) : Inv (s.writeReg r v) := by
  simpa only [Inv, State.writeReg_mem, State.writeReg_cfg, State.writeReg_regs_zero, State.writeReg_paging,
    State.writeReg_ivr, State.writeReg_nesting] using h

/-- A store inside memory keeps the memory canonical and inside MEMSIZE (20_memory.md R40). -/
theorem Inv.setCell (h : Inv s) {a : Word} {w : Width} (hr : InRange s a w) (v : Word) : Inv (s.setCell a w v) := by
  obtain ⟨hwf, hbelow, hrest⟩ := h
  exact ⟨Memory.wf_writeBytes _ _ _ hwf, Memory.below_writeBytes _ _ _ _ (by simpa using hr) hbelow, hrest⟩

end Invariant

/-! ### What an instruction that completes can do

Every instruction writes registers and accessible cells, sees its pc and the system state unchanged while it does so, and
sets the pc as its last act. -/

/-- The states reached from `s` by writing registers and accessible cells. -/
inductive Writes (s : State) : State → Prop where
  | refl : Writes s s
  | writeReg {t : State} (h : Writes s t) (r : Reg) (v : Word) : Writes s (t.writeReg r v)
  | setCell {t : State} (h : Writes s t) {a : Word} {w : Width} (ha : Accessible t a w) (v : Word) :
      Writes s (t.setCell a w v)

/-- `t` is `s` after writes of registers and accessible cells, with the pc set to `p` in the end. -/
def EndsAt (s t : State) (p : Word) : Prop := ∃ u, Writes s u ∧ t = u.setPc p

section Completion

variable {s t : State} {p : Word}

theorem Writes.pc (h : Writes s t) : t.pc = s.pc := by
  induction h with
  | refl => rfl
  | writeReg _ r v ih => rw [State.writeReg_pc, ih]
  | setCell _ _ v ih => rw [State.setCell_pc, ih]

theorem Writes.nextPc (h : Writes s t) : t.nextPc = s.nextPc := by rw [State.nextPc, h.pc, State.nextPc]

theorem Writes.sameSystem (h : Writes s t) : SameSystem s t := by
  induction h with
  | refl => exact ⟨rfl, rfl, rfl, rfl⟩
  | writeReg _ r v ih => simpa [SameSystem] using ih
  | setCell _ _ v ih => exact ih

theorem Writes.inv (h : Writes s t) (hs : Inv s) : Inv t := by
  induction h with
  | refl => exact hs
  | writeReg _ r v ih => exact ih.writeReg r v
  | setCell _ ha v ih => exact ih.setCell ha.2 v

theorem EndsAt.pc (h : EndsAt s t p) : t.pc = p := by
  obtain ⟨u, _, rfl⟩ := h
  rfl

theorem EndsAt.sameSystem (h : EndsAt s t p) : SameSystem s t := by
  obtain ⟨u, hu, rfl⟩ := h
  exact hu.sameSystem

theorem EndsAt.inv (h : EndsAt s t p) (hs : Inv s) : Inv t := by
  obtain ⟨u, hu, rfl⟩ := h
  exact (hu.inv hs).setPc p

theorem Writes.setPc_endsAt (h : Writes s t) (p : Word) : EndsAt s (t.setPc p) p := ⟨t, h, rfl⟩

theorem Writes.advance_endsAt (h : Writes s t) : EndsAt s t.advance s.nextPc := ⟨t, h, by rw [State.advance, h.nextPc]⟩

/-! ### Where each kind of instruction ends -/

theorem finish_endsAt {rd : Reg} {v : Word} (h : finish s rd v = .next t) : EndsAt s t s.nextPc := by
  cases h
  exact (Writes.refl.writeReg rd v).advance_endsAt

theorem divide_endsAt {q : Word → Word → Word} {rd : Reg} {a b : Word} (h : divide q s rd a b = .next t) :
    EndsAt s t s.nextPc := by
  unfold divide at h
  split at h
  · cases h
  · exact finish_endsAt h

theorem load_endsAt {w : Width} {rd r1 : Reg} {imm : ImmS} (h : load w rd r1 imm s = .next t) : EndsAt s t s.nextPc := by
  obtain ⟨v, _, hf⟩ := andThen_eq_next h
  exact finish_endsAt hf

theorem store_endsAt {w : Width} {rd r1 : Reg} {imm : ImmS} (h : store w rd r1 imm s = .next t) : EndsAt s t s.nextPc := by
  obtain ⟨u, hw, hu⟩ := andThen_eq_next h
  obtain ⟨ha, rfl⟩ := memWrite_eq_next hw
  cases hu
  exact (Writes.refl.setCell ha _).advance_endsAt

theorem execPush_endsAt {rd r1 : Reg} {imm : ImmS} (h : execPush rd r1 imm s = .next t) : EndsAt s t s.nextPc := by
  obtain ⟨u, hw, hu⟩ := andThen_eq_next h
  obtain ⟨ha, rfl⟩ := memWrite_eq_next hw
  cases hu
  exact ((Writes.refl.setCell ha _).writeReg _ _).advance_endsAt

theorem execPull_endsAt {rd r1 : Reg} (h : execPull rd r1 s = .next t) : EndsAt s t s.nextPc := by
  obtain ⟨v, _, hu⟩ := andThen_eq_next h
  cases hu
  exact ((Writes.refl.writeReg _ _).writeReg _ _).advance_endsAt

theorem execCall_endsAt {rd r1 r2 : Reg} (h : execCall rd r1 r2 s = .next t) : ∃ p, EndsAt s t p := by
  obtain ⟨u, hw, h⟩ := andThen_eq_next h
  obtain ⟨ha, rfl⟩ := memWrite_eq_next hw
  obtain ⟨u', hw', h⟩ := andThen_eq_next h
  obtain ⟨ha', rfl⟩ := memWrite_eq_next hw'
  cases h
  exact ⟨_, ((((Writes.refl.setCell ha _).setCell ha' _).writeReg _ _).writeReg _ _).setPc_endsAt _⟩

theorem execRetn_endsAt {r1 r2 : Reg} (h : execRetn r1 r2 s = .next t) : ∃ p, EndsAt s t p := by
  obtain ⟨bp, _, h⟩ := andThen_eq_next h
  obtain ⟨target, _, h⟩ := andThen_eq_next h
  cases h
  exact ⟨_, ((Writes.refl.writeReg _ _).writeReg _ _).setPc_endsAt _⟩

theorem execJal_endsAt {r1 : Reg} {imm : ImmL} (h : execJal r1 imm s = .next t) : ∃ p, EndsAt s t p := by
  cases h
  exact ⟨_, (Writes.refl.writeReg _ _).setPc_endsAt _⟩

theorem execJalr_endsAt {rd r1 : Reg} {imm : ImmS} (h : execJalr rd r1 imm s = .next t) : ∃ p, EndsAt s t p := by
  cases h
  exact ⟨_, (Writes.refl.writeReg _ _).setPc_endsAt _⟩

theorem branch_endsAt {taken : Bool} {imm : ImmS} (h : branch taken imm s = .next t) :
    EndsAt s t (if taken then s.branchTarget imm else s.nextPc) := by
  cases h
  exact Writes.refl.setPc_endsAt _

/-- A `jleu` that completes is a branch: its cut pseudocode is refused (44_group2_jumps.md R151). -/
theorem execJleu_eq_next {rd r1 : Reg} {imm : ImmS} (h : execJleu rd r1 imm s = .next t) :
    ∃ taken, branch taken imm s = .next t := by
  unfold execJleu at h
  split at h
  · exact ⟨_, h⟩
  · cases h

/-- Everything an instruction can change: registers and accessible cells, then the pc, which goes to the next instruction
unless the instruction transfers control (10_state.md R26). -/
theorem exec_endsAt {i : Instr} (h : exec i s = .next t) :
    ∃ p, EndsAt s t p ∧ (transfersControl i = false → p = s.nextPc) := by
  have sequential (he : EndsAt s t s.nextPc) : ∃ p, EndsAt s t p ∧ (transfersControl i = false → p = s.nextPc) :=
    ⟨_, he, fun _ => rfl⟩
  have transfer (hi : transfersControl i = true) (he : ∃ p, EndsAt s t p) :
      ∃ p, EndsAt s t p ∧ (transfersControl i = false → p = s.nextPc) :=
    he.imp fun _ hp => ⟨hp, by simp [hi]⟩
  cases i
  case call => exact transfer rfl (execCall_endsAt h)
  case retn => exact transfer rfl (execRetn_endsAt h)
  case jal => exact transfer rfl (execJal_endsAt h)
  case jalr => exact transfer rfl (execJalr_endsAt h)
  case je | jne | jgu => exact transfer rfl ⟨_, branch_endsAt h⟩
  case jleu =>
    obtain ⟨_, hb⟩ := execJleu_eq_next h
    exact transfer rfl ⟨_, branch_endsAt hb⟩
  case push => exact sequential (execPush_endsAt h)
  case pull => exact sequential (execPull_endsAt h)
  case ldb | ldh | ldw | ldd => exact sequential (load_endsAt h)
  case stb | sth | stw | std => exact sequential (store_endsAt h)
  case udivr | udivi | sdivr | sdivi => exact sequential (divide_endsAt h)
  all_goals exact sequential (finish_endsAt h)

/-! ### What a program call and a step can do -/

theorem interruptVectorCheck_endsAt (s : State) : EndsAt s (interruptVectorCheck s) s.nextPc := by
  have h31 (v : Word) := Writes.refl.writeReg (s := s) 31 v
  unfold interruptVectorCheck
  cases s.cfg.ivMode
  case impossible => exact (h31 _).advance_endsAt
  case fixedAddress => exact (((h31 _).writeReg _ _).writeReg _ _).advance_endsAt
  case anywhere => exact ((h31 _).writeReg _ _).advance_endsAt

theorem pagingCheck_endsAt (s : State) : EndsAt s (pagingCheck s) s.nextPc := by
  have h31 := Writes.refl.writeReg (s := s) 31 s.cfg.pageLevels
  unfold pagingCheck
  dsimp only
  split
  · exact h31.advance_endsAt
  · exact (h31.writeReg _ _).advance_endsAt

/-- Interrupt vector enable sets the vector register where the check returns 2, else it only goes on (45_pcall.md R165). -/
theorem interruptVectorEnable_cases (s : State) :
    interruptVectorEnable s = s.advance ∨
      (s.cfg.ivMode = .anywhere ∧ interruptVectorEnable s = { s with ivr := some (s.readReg 31) }.advance) := by
  unfold interruptVectorEnable
  cases s.cfg.ivMode
  case impossible => exact .inl rfl
  case fixedAddress => exact .inl rfl
  case anywhere => exact .inr ⟨rfl, rfl⟩

/-- Paging enable turns paging on where there is paging, else it only goes on (45_pcall.md R167). -/
theorem pagingEnable_cases (s : State) :
    pagingEnable s = s.advance ∨
      (s.cfg.pageLevels ≠ 0 ∧ pagingEnable s = { s with paging := some (s.readReg 30) }.advance) := by
  unfold pagingEnable
  split
  · exact .inl rfl
  · exact .inr ⟨‹_›, rfl⟩

/-- Everything that changes from one state to the next: registers, accessible cells and the pc; or the vector register, where
the check returns 2; or the paging state, where there is paging. -/
def StepChange (s t : State) : Prop :=
  (∃ p, EndsAt s t p) ∨
  (s.cfg.ivMode = .anywhere ∧ t = { s with ivr := some (s.readReg 31) }.advance) ∨
  (s.cfg.pageLevels ≠ 0 ∧ t = { s with paging := some (s.readReg 30) }.advance)

theorem processorInterface_stepChange (h : processorInterface s = .next t) : StepChange s t := by
  rcases processorInterface_cases s with ⟨_, _, e⟩ | ⟨_, _, e⟩ | ⟨_, _, e⟩ | ⟨_, _, e⟩ | ⟨_, _, e⟩ | ⟨_, e⟩ | e <;>
    rw [e] at h <;> cases h
  · exact .inl ⟨_, interruptVectorCheck_endsAt s⟩
  · rcases interruptVectorEnable_cases s with e | h
    · exact .inl ⟨_, e ▸ Writes.refl.advance_endsAt⟩
    · exact .inr (.inl h)
  · exact .inl ⟨_, pagingCheck_endsAt s⟩
  · rcases pagingEnable_cases s with e | h
    · exact .inl ⟨_, e ▸ Writes.refl.advance_endsAt⟩
    · exact .inr (.inr h)
  · exact .inl ⟨_, (Writes.refl.writeReg _ _).advance_endsAt⟩
  · exact .inl ⟨_, (Writes.refl.writeReg _ _).advance_endsAt⟩

/-- An undefined word completes only as the processor interface: any other program call is a trap (45_pcall.md R173). -/
theorem execUndefined_eq_next {w : Word} (h : execUndefined w s = .next t) : processorInterface s = .next t := by
  unfold execUndefined at h
  split at h
  · unfold pcall at h
    split at h
    · exact h
    · cases h
  · cases h

/-- A step that completes ran the word at the pc. -/
theorem step_eq_next (h : step s = .next t) : ∃ w, runWord w s = .next t := by
  unfold step at h
  split at h
  · cases h
  · obtain ⟨w, _, hw⟩ := andThen_eq_next h
    exact ⟨w, hw⟩

theorem step_stepChange (h : step s = .next t) : StepChange s t := by
  obtain ⟨w, hw⟩ := step_eq_next h
  unfold runWord at hw
  split at hw
  · obtain ⟨p, hp, _⟩ := exec_endsAt hw
    exact .inl ⟨p, hp⟩
  · exact processorInterface_stepChange (execUndefined_eq_next hw)

theorem StepChange.inv (h : StepChange s t) (hs : Inv s) : Inv t := by
  rcases h with ⟨p, hp⟩ | ⟨hm, rfl⟩ | ⟨hl, rfl⟩
  · exact hp.inv hs
  · obtain ⟨hwf, hbelow, hzero, hpaging, _, hnesting⟩ := hs
    exact ⟨hwf, hbelow, hzero, hpaging, fun h => absurd hm h, hnesting⟩
  · obtain ⟨hwf, hbelow, hzero, _, hivr, hnesting⟩ := hs
    exact ⟨hwf, hbelow, hzero, fun h => absurd h hl, hivr, hnesting⟩

theorem StepChange.cfg_nesting (h : StepChange s t) : t.cfg = s.cfg ∧ t.nesting = s.nesting := by
  rcases h with ⟨p, hp⟩ | ⟨_, rfl⟩ | ⟨_, rfl⟩
  · obtain ⟨hcfg, _, _, hnesting⟩ := hp.sameSystem
    exact ⟨hcfg, hnesting⟩
  · exact ⟨rfl, rfl⟩
  · exact ⟨rfl, rfl⟩

end Completion

/-- Settles O11: what one step can change keeps each part of the invariant. -/
theorem stepKeepsTheInvariant : Obligations.StepKeepsTheInvariant :=
  fun _ _ hs h => (step_stepChange h).inv hs

/-- Settles O13: nothing a step can change is a parameter or the nesting state. -/
theorem stepKeepsParametersAndNesting : Obligations.StepKeepsParametersAndNesting :=
  fun _ _ h => (step_stepChange h).cfg_nesting

/-- Settles O20: the pc an instruction ends at, read off `exec_endsAt`. -/
theorem sequentialInstructionsAdvanceByEight : Obligations.SequentialInstructionsAdvanceByEight := by
  intro i s t hi h
  obtain ⟨p, hp, hseq⟩ := exec_endsAt h
  calc t.pc = p := hp.pc
    _ = s.nextPc := hseq hi
    _ = s.pc + 8 := rfl

/-! ### Conditional jumps and the alignment of the pc -/

section Alignment

variable {s t : State}

theorem State.nextPc_aligned (h : s.pc.toNat % 8 = 0) : s.nextPc.toNat % 8 = 0 := by
  simp only [State.nextPc]
  bv_omega

/-- The offset of a conditional jump counts instructions (44_group2_jumps.md R145). -/
theorem State.branchTarget_aligned (h : s.pc.toNat % 8 = 0) (imm : ImmS) : (s.branchTarget imm).toNat % 8 = 0 := by
  simp only [State.branchTarget]
  bv_omega

theorem branch_aligned {taken : Bool} {imm : ImmS} (hs : s.pc.toNat % 8 = 0) (h : branch taken imm s = .next t) :
    t.pc.toNat % 8 = 0 := by
  rw [(branch_endsAt h).pc]
  split
  · exact State.branchTarget_aligned hs imm
  · exact State.nextPc_aligned hs

end Alignment

/-- Settles O51: each of the four jumps that completes is a branch, and both places a branch can go to are aligned. -/
theorem conditionalJumpsKeepThePcAligned : Obligations.ConditionalJumpsKeepThePcAligned := by
  rintro rd r1 imm s t i (rfl | rfl | rfl | rfl) hs h
  · exact branch_aligned hs h
  · exact branch_aligned hs h
  · exact branch_aligned hs h
  · obtain ⟨_, hb⟩ := execJleu_eq_next h
    exact branch_aligned hs hb

/-! ### The start of a run -/

theorem State.startOfRun_inv {c : Config} {regs : Vector Word 32} {image : Memory} (hwf : Memory.wf image = true)
    (hbelow : Memory.below c.memSize image = true) (hzero : regs[0] = 0) : Inv (State.startOfRun c regs image) :=
  ⟨hwf, hbelow, hzero, fun _ => rfl, fun _ => rfl, rfl⟩

/-- At `State.reset` every register holds 0, the model's choice (log 1). -/
@[simp] theorem State.reset_readReg (r : Reg) : State.reset.readReg r = 0 := by
  simp [State.readReg, State.reset, State.startOfRun]

/-- At `State.reset` every byte reads as unwritten, the model's choice (log 5). -/
@[simp] theorem State.reset_readByte (a : Nat) : State.reset.readByte a = unwrittenByte := rfl

/-- Settles O12: the start values are the fields of `State.startOfRun`, and `State.reset` is one of these starts. -/
theorem startOfRunSatisfiesTheInvariant : Obligations.StartOfRunSatisfiesTheInvariant := by
  refine ⟨?reset, State.reset_readReg, State.reset_readByte, fun c regs image => ?start⟩
  case reset => exact State.startOfRun_inv rfl rfl (by simp)
  case start => exact ⟨State.readReg_zero _, rfl, rfl, rfl, rfl, State.startOfRun_inv⟩

/-! ### Changes of the state that instructions do not see

A change of the state is unseen if it alters nothing the operations read and commutes with everything they write. An
instruction then runs to the same outcome, its next state changed alike. -/

/-- A change that the register operations and the pc do not see. -/
structure Unseen (f : State → State) : Prop where
  cfg : ∀ s, (f s).cfg = s.cfg
  pc : ∀ s, (f s).pc = s.pc
  readReg : ∀ s r, (f s).readReg r = s.readReg r
  writeReg : ∀ s r v, (f s).writeReg r v = f (s.writeReg r v)
  setPc : ∀ s p, (f s).setPc p = f (s.setPc p)

/-- A change that memory accesses do not see either. -/
structure UnseenByMemory (f : State → State) : Prop extends Unseen f where
  paging : ∀ s, (f s).paging = s.paging
  mem : ∀ s, (f s).mem = s.mem
  setCell : ∀ s a w v, (f s).setCell a w v = f (s.setCell a w v)

section MapNext

variable {α : Type} (f : State → State)

@[simp] theorem mapNext_next (s : State) : mapNext f (.next s) = .next (f s) := rfl
@[simp] theorem mapNext_fault (r : Fault) : mapNext f (.fault r) = .fault r := rfl
@[simp] theorem mapNext_refused (r : Refusal) : mapNext f (.refused r) = .refused r := rfl

theorem mapNext_andThen (x : Result α) (g : α → Result State) :
    mapNext f (andThen x g) = andThen x fun v => mapNext f (g v) := by
  cases x <;> rfl

theorem andThen_mapNext (x : Result State) (g : State → Result α) :
    andThen (mapNext f x) g = andThen x fun t => g (f t) := by
  cases x <;> rfl

end MapNext

section Unseen

variable {f : State → State}

/-! ### Instructions without memory accesses -/

section Registers

variable (hf : Unseen f) (s : State)

include hf

theorem Unseen.nextPc : (f s).nextPc = s.nextPc := by rw [State.nextPc, hf.pc, State.nextPc]

theorem Unseen.immS (imm : ImmS) : (f s).immS imm = s.immS imm := by rw [State.immS, hf.cfg, State.immS]

theorem Unseen.immL (imm : ImmL) : (f s).immL imm = s.immL imm := by rw [State.immL, hf.cfg, State.immL]

theorem Unseen.advance : (f s).advance = f s.advance := by rw [State.advance, hf.nextPc, hf.setPc, State.advance]

theorem Unseen.raise {α : Type} (c : Cause) : (raise (f s) c : Result α) = raise s c := by
  rw [raise_eq, raise_eq, hf.cfg, hf.pc]

theorem Unseen.finish (rd : Reg) {v v' : Word} (hv : v' = v) : finish (f s) rd v' = mapNext f (finish s rd v) := by
  rw [hv, finish_eq, finish_eq, hf.writeReg, hf.advance, mapNext_next]

theorem Unseen.divide (q : Word → Word → Word) (rd : Reg) {a a' b b' : Word} (ha : a' = a) (hb : b' = b) :
    divide q (f s) rd a' b' = mapNext f (divide q s rd a b) := by
  subst ha hb
  unfold Machine.divide
  split
  · rw [hf.raise, raise_eq, mapNext_fault]
  · exact hf.finish s rd rfl

theorem Unseen.branch {taken taken' : Bool} (ht : taken' = taken) (imm : ImmS) :
    branch taken' imm (f s) = mapNext f (branch taken imm s) := by
  simp only [ht, Machine.branch, State.branchTarget, hf.pc, hf.immS, hf.nextPc, hf.setPc, mapNext_next]

theorem Unseen.execJal (r1 : Reg) (imm : ImmL) : execJal r1 imm (f s) = mapNext f (execJal r1 imm s) := by
  simp only [Machine.execJal, hf.pc, hf.nextPc, hf.immL, hf.writeReg, hf.setPc, mapNext_next]

theorem Unseen.execJalr (rd r1 : Reg) (imm : ImmS) : execJalr rd r1 imm (f s) = mapNext f (execJalr rd r1 imm s) := by
  simp only [Machine.execJalr, hf.pc, hf.nextPc, hf.immS, hf.writeReg, hf.readReg, hf.setPc, mapNext_next]

theorem Unseen.execJleu (rd r1 : Reg) (imm : ImmS) : execJleu rd r1 imm (f s) = mapNext f (execJleu rd r1 imm s) := by
  simp only [Machine.execJleu, hf.cfg, hf.readReg]
  split
  · exact hf.branch s rfl imm
  · rfl

/-- An instruction that makes no access besides its fetch does not see the change. -/
theorem Unseen.exec {i : Instr} (hi : accessesMemory i = false) : exec i (f s) = mapNext f (exec i s) := by
  have hr := hf.readReg s
  have hk := hf.immS s
  cases i
  case call | push | retn | pull | ldb | ldh | ldw | ldd | stb | sth | stw | std => simp [accessesMemory] at hi
  case jal => exact hf.execJal s _ _
  case jalr => exact hf.execJalr s _ _ _
  case jleu => exact hf.execJleu s _ _ _
  case jne => exact hf.branch s (by rw [hr, hr]) _
  case je | jgu => exact hf.branch s (by rw [hf.cfg, hr, hr]) _
  case udivr | sdivr => exact hf.divide s _ _ (hr _) (hr _)
  case udivi | sdivi => exact hf.divide s _ _ (hr _) (hk _)
  case not => exact hf.finish s _ (by rw [hr])
  case cnt => exact hf.finish s _ (by rw [hf.cfg, hr, hk])
  case andr | xorr | orr | llsr | lrsr | alsr | arsr | addr | subr | umulr | smulr =>
    exact hf.finish s _ (by rw [hr, hr])
  case andi | xori | ori | llsi | lrsi | alsi | arsi | addi | subi | umuli | smuli =>
    exact hf.finish s _ (by rw [hr, hk])

end Registers

/-! ### Memory accesses -/

section Accesses

variable (hf : UnseenByMemory f) (s : State)

include hf

theorem UnseenByMemory.checkAccess (a : Word) (w : Width) : checkAccess (f s) a w = checkAccess s a w := by
  simp only [Machine.checkAccess, hf.paging, hf.cfg, hf.raise]

theorem UnseenByMemory.memRead (a : Word) (w : Width) : memRead (f s) a w = memRead s a w := by
  simp only [Machine.memRead, hf.checkAccess, State.cell, hf.cfg, hf.mem]

theorem UnseenByMemory.memWrite (a : Word) (w : Width) (v : Word) :
    memWrite (f s) a w v = mapNext f (memWrite s a w v) := by
  simp only [Machine.memWrite, hf.checkAccess, hf.setCell, mapNext_andThen, mapNext_next]

theorem UnseenByMemory.load (w : Width) (rd r1 : Reg) (imm : ImmS) :
    load w rd r1 imm (f s) = mapNext f (load w rd r1 imm s) := by
  simp only [Machine.load, State.effAddr, hf.readReg, hf.immS, hf.memRead, hf.toUnseen.finish s rd rfl, mapNext_andThen]

theorem UnseenByMemory.store (w : Width) (rd r1 : Reg) (imm : ImmS) :
    store w rd r1 imm (f s) = mapNext f (store w rd r1 imm s) := by
  simp only [Machine.store, State.effAddr, hf.readReg, hf.immS, hf.memWrite, hf.advance, andThen_mapNext, mapNext_andThen,
    mapNext_next]

theorem UnseenByMemory.execPush (rd r1 : Reg) (imm : ImmS) :
    execPush rd r1 imm (f s) = mapNext f (execPush rd r1 imm s) := by
  simp only [Machine.execPush, hf.readReg, hf.immS, hf.memWrite, hf.writeReg, hf.advance, andThen_mapNext, mapNext_andThen,
    mapNext_next]

theorem UnseenByMemory.execPull (rd r1 : Reg) : execPull rd r1 (f s) = mapNext f (execPull rd r1 s) := by
  simp only [Machine.execPull, hf.readReg, hf.memRead, hf.writeReg, hf.advance, mapNext_andThen, mapNext_next]

theorem UnseenByMemory.execCall (rd r1 r2 : Reg) : execCall rd r1 r2 (f s) = mapNext f (execCall rd r1 r2 s) := by
  simp only [Machine.execCall, hf.readReg, hf.nextPc, hf.memWrite, hf.writeReg, hf.setPc, andThen_mapNext, mapNext_andThen,
    mapNext_next]

theorem UnseenByMemory.execRetn (r1 r2 : Reg) : execRetn r1 r2 (f s) = mapNext f (execRetn r1 r2 s) := by
  simp only [Machine.execRetn, hf.readReg, hf.memRead, hf.writeReg, hf.setPc, mapNext_andThen, mapNext_next]

/-- No instruction sees a change that neither registers nor memory accesses see. -/
theorem UnseenByMemory.exec (i : Instr) : exec i (f s) = mapNext f (exec i s) := by
  cases i
  case call => exact hf.execCall s _ _ _
  case push => exact hf.execPush s _ _ _
  case retn => exact hf.execRetn s _ _
  case pull => exact hf.execPull s _ _
  case ldb | ldh | ldw | ldd => exact hf.load s _ _ _ _
  case stb | sth | stw | std => exact hf.store s _ _ _ _
  all_goals exact hf.toUnseen.exec s rfl

end Accesses

end Unseen

/-- The change of O14: another vector register and another nesting state. -/
def State.withVectorAndNesting (p : Option Word) (n : FaultNesting) (s : State) : State := { s with ivr := p, nesting := n }

/-- No operation reads the vector register or the nesting state (10_state.md R29, R31). -/
theorem State.withVectorAndNesting_unseen (p : Option Word) (n : FaultNesting) :
    UnseenByMemory (State.withVectorAndNesting p n) where
  cfg _ := rfl
  pc _ := rfl
  readReg _ _ := rfl
  writeReg s r v := by unfold State.writeReg; split <;> rfl
  setPc _ _ := rfl
  paging _ := rfl
  mem _ := rfl
  setCell _ _ _ _ := rfl

/-- Settles O14: the change of vector register and nesting state is unseen by every instruction. -/
theorem instructionsIgnoreVectorRegisterAndNesting : Obligations.InstructionsIgnoreVectorRegisterAndNesting :=
  fun i s p n => (State.withVectorAndNesting_unseen p n).exec s i

end Sys2Proof.Machine
end

section
/-! PROOFS. The memory family (20_memory.md): the bytes of a cell, which accesses complete, the canonical form, and the word a
fetch sees. -/

namespace Sys2Proof

/-! ### Eight bytes and the word they hold -/

/-- A byte appended below a bit vector is its least significant byte. -/
theorem toNat_append_byte {n : Nat} (x : BitVec n) (b : Byte) : (x ++ b).toNat = b.toNat + 256 * x.toNat := by
  rw [BitVec.toNat_append, ← Nat.shiftLeft_add_eq_or_of_lt b.isLt, Nat.shiftLeft_eq]
  omega

/-- Eight bytes joined little-endian: the first is the lowest part of the word (20_memory.md R43). -/
theorem joinBytes_little_eight (b₀ b₁ b₂ b₃ b₄ b₅ b₆ b₇ : Byte) :
    joinBytes .little [b₀, b₁, b₂, b₃, b₄, b₅, b₆, b₇] = b₇ ++ b₆ ++ b₅ ++ b₄ ++ b₃ ++ b₂ ++ b₁ ++ b₀ := by
  have hjoin : joinLittle [b₀, b₁, b₂, b₃, b₄, b₅, b₆, b₇] = (b₇ ++ b₆ ++ b₅ ++ b₄ ++ b₃ ++ b₂ ++ b₁ ++ b₀).toNat := by
    simp only [joinLittle, toNat_append_byte, Nat.mul_zero, Nat.add_zero]
  simp only [joinBytes, hjoin, BitVec.ofNat_toNat, BitVec.setWidth_eq]

/-- Joining big-endian is joining the reversed bytes little-endian (20_memory.md R43). -/
theorem joinBytes_big (bs : List Byte) : joinBytes .big bs = joinBytes .little bs.reverse := rfl

theorem joinBytes_big_eight (b₀ b₁ b₂ b₃ b₄ b₅ b₆ b₇ : Byte) :
    joinBytes .big [b₀, b₁, b₂, b₃, b₄, b₅, b₆, b₇] = b₀ ++ b₁ ++ b₂ ++ b₃ ++ b₄ ++ b₅ ++ b₆ ++ b₇ :=
  (joinBytes_big _).trans (joinBytes_little_eight b₇ b₆ b₅ b₄ b₃ b₂ b₁ b₀)

theorem decodeBytes_of_short (o : ByteOrder) {bs : List Byte} (h : bs.length < 8) :
    decodeBytes o bs = .error (.tooShort bs.length) := if_pos h

/-- Eight bytes at the head of a list are decoded as the word they join to, and the bytes after them are left. -/
theorem decodeBytes_append (o : ByteOrder) {bs : List Byte} (rest : List Byte) (h : bs.length = 8) :
    decodeBytes o (bs ++ rest) = (decodeWord (joinBytes o bs)).map fun i => (i, rest) := by
  have hlen : ¬ (bs ++ rest).length < 8 := by simp [h]
  rw [decodeBytes, if_neg hlen, List.take_left' h, List.drop_left' h]
  cases decodeWord (joinBytes o bs) <;> rfl

/-- Settles O7: the decoder joins the first eight bytes, and each order joins them to the word written out. -/
theorem eightBytesDecodeLikeTheirWord : Obligations.EightBytesDecodeLikeTheirWord := by
  intro b₀ b₁ b₂ b₃ b₄ b₅ b₆ b₇ rest
  have hdecode (o : ByteOrder) := decodeBytes_append o (bs := [b₀, b₁, b₂, b₃, b₄, b₅, b₆, b₇]) rest rfl
  refine ⟨?little, ?big, fun o bs h => decodeBytes_of_short o h⟩
  case little => exact (hdecode .little).trans (by rw [joinBytes_little_eight])
  case big => exact (hdecode .big).trans (by rw [joinBytes_big_eight])

/-! ### Single bytes of a word, and the value of a run of bytes -/

/-- Byte `i` of the big-endian cell of a word, counted from the top. -/
theorem splitBytes_big_getElem (n : Nat) (v : Word) (i : Nat) (h : i < (splitBytes .big n v).length) :
    (splitBytes .big n v)[i] = v.extractLsb' (8 * (n - 1 - i)) 8 := by
  simp only [splitBytes, List.getElem_reverse, splitLittle_getElem, splitLittle_length]

/-- A byte joined after a run is its most significant one. -/
theorem joinLittle_concat (bs : List Byte) (b : Byte) :
    joinLittle (bs ++ [b]) = b.toNat * 256 ^ bs.length + joinLittle bs := by
  induction bs with
  | nil => simp [joinLittle]
  | cons c bs ih =>
    simp only [List.cons_append, joinLittle, ih, List.length_cons, Nat.pow_succ]
    ring

/-- A run of at most eight bytes loses nothing when it is joined to a word. -/
theorem joinBytes_little_toNat {bs : List Byte} (h : bs.length ≤ 8) : (joinBytes .little bs).toNat = joinLittle bs := by
  have hfits : joinLittle bs < 2 ^ 64 :=
    calc joinLittle bs < 256 ^ bs.length := joinLittle_lt bs
      _ ≤ 256 ^ 8 := Nat.pow_le_pow_right (by decide) h
      _ = 2 ^ 64 := by decide
  exact Nat.mod_eq_of_lt hfits

namespace Machine

theorem Width.bytes_le_eight (w : Width) : w.bytes ≤ 8 := by cases w <;> decide

/-- A run of memory joined from the lowest address up, as a sum over its bytes. -/
theorem Memory.joinLittle_readBytes (m : Memory) (a n : Nat) :
    joinLittle (m.readBytes a n) = ((List.range n).map fun i => (Memory.read m (a + i)).toNat * 256 ^ i).sum := by
  induction n generalizing a with
  | zero => rfl
  | succ n ih =>
    have hshift (i : Nat) : (Memory.read m (a + 1 + i)).toNat * 256 ^ i * 256 =
        (Memory.read m (a + (i + 1))).toNat * 256 ^ (i + 1) := by
      rw [Nat.pow_succ, Nat.mul_assoc, Nat.add_assoc, Nat.add_comm 1]
    rw [Memory.readBytes, joinLittle, ih, Nat.mul_comm, ← List.sum_map_mul_right, List.range_succ_eq_map]
    simp [hshift, Function.comp_def]

/-- A run of memory joined from the highest address down, as a sum over its bytes. -/
theorem Memory.joinLittle_reverse_readBytes (m : Memory) (a n : Nat) :
    joinLittle (m.readBytes a n).reverse =
      ((List.range n).map fun i => (Memory.read m (a + i)).toNat * 256 ^ (n - 1 - i)).sum := by
  induction n generalizing a with
  | zero => rfl
  | succ n ih =>
    have hshift (i : Nat) : (Memory.read m (a + 1 + i)).toNat * 256 ^ (n - 1 - i) =
        (Memory.read m (a + (i + 1))).toNat * 256 ^ (n - (i + 1)) := by
      rw [Nat.sub_sub, Nat.add_comm 1 i, Nat.add_assoc, Nat.add_comm 1 i]
    rw [Memory.readBytes, List.reverse_cons, joinLittle_concat, ih, List.range_succ_eq_map]
    simp [hshift, Function.comp_def]

/-- The model's cell holds the value 20_memory.md R43 gives it. -/
theorem State.cell_toNat (s : State) (a : Word) (w : Width) : (s.cell a w).toNat = cellValue s a.toNat w.bytes := by
  have hlen : (s.mem.readBytes a.toNat w.bytes).length ≤ 8 := by simpa using w.bytes_le_eight
  rw [State.cell, cellValue]
  cases s.cfg.byteOrder
  case little => exact (joinBytes_little_toNat hlen).trans (Memory.joinLittle_readBytes ..)
  case big =>
    rw [joinBytes_big, joinBytes_little_toNat (by simpa using hlen)]
    exact Memory.joinLittle_reverse_readBytes ..

/-! ### Cells after a write -/

theorem State.readByte_setCell_inside (s : State) (a : Word) (w : Width) (v : Word) {i : Nat} (h : i < w.bytes) :
    (s.setCell a w v).readByte (a.toNat + i) = (splitBytes s.cfg.byteOrder w.bytes v)[i]'(by simpa using h) :=
  Memory.read_writeBytes_inside _ _ _ _ (by simpa using h)

theorem State.sameMemoryOutside_setCell (s : State) (a : Word) (w : Width) (v : Word) :
    SameMemoryOutside s (s.setCell a w v) a.toNat w.bytes := fun b h => s.readByte_setCell_outside a w v b h

theorem State.sameRegisters_setCell (s : State) (a : Word) (w : Width) (v : Word) : SameRegisters s (s.setCell a w v) :=
  fun _ => rfl

theorem State.sameSystem_setCell (s : State) (a : Word) (w : Width) (v : Word) : SameSystem s (s.setCell a w v) :=
  ⟨rfl, rfl, rfl, rfl⟩

/-- The cell just written holds the value modulo the width of the cell. -/
theorem State.cell_setCell_toNat (s : State) (a : Word) (w : Width) (v : Word) :
    ((s.setCell a w v).cell a w).toNat = v.toNat % 2 ^ (8 * w.bytes) := by
  have hlt : v.toNat % 256 ^ w.bytes < 2 ^ 64 := lt_of_le_of_lt (Nat.mod_le _ _) v.isLt
  rw [State.cell_setCell, BitVec.toNat_ofNat, Nat.mod_eq_of_lt hlt, Nat.pow_mul]

/-- A double word just written reads back whole. -/
theorem State.cell_setCell_double (s : State) (a v : Word) : (s.setCell a .double v).cell a .double = v :=
  BitVec.eq_of_toNat_eq ((s.cell_setCell_toNat a .double v).trans (Nat.mod_eq_of_lt v.isLt))

/-- Settles O8: the three answers of an access, with the cell's value from `State.cell_toNat`. -/
theorem accessesCompleteExactlyInRange : Obligations.AccessesCompleteExactlyInRange := by
  intro s a w hp
  have hread (hr : InRange s a w) : memRead s a w = .next (s.cell a w) := memRead_of_accessible ⟨hp, hr⟩
  refine ⟨⟨?inRange, fun hr => ⟨_, hread hr⟩⟩, fun hr => ⟨_, hread hr, s.cell_toNat a w⟩, fun hr => ?trap⟩
  case inRange =>
    rintro ⟨v, hv⟩
    obtain ⟨⟨_, hr⟩, _⟩ := memRead_eq_next hv
    exact hr
  case trap => exact ⟨memRead_of_outOfRange hp hr, fun _ => memWrite_of_outOfRange hp hr⟩

/-- Settles O9: the state after the write is `State.setCell`, whose bytes, frame and cell the lemmas above give. -/
theorem writtenCellReadsBack : Obligations.WrittenCellReadsBack := by
  intro s a w v h
  refine ⟨s.setCell a w v, memWrite_of_accessible h, fun i hi => ?bytes, s.sameMemoryOutside_setCell a w v,
    s.sameRegisters_setCell a w v, rfl, s.sameSystem_setCell a w v,
    _, memRead_of_accessible (s := s.setCell a w v) h, s.cell_setCell_toNat a w v⟩
  case bytes =>
    rw [s.readByte_setCell_inside a w v hi]
    cases s.cfg.byteOrder
    case little => exact splitLittle_getElem ..
    case big => exact splitBytes_big_getElem ..

/-! ### The canonical form -/

/-- An address below every listed one reads as unwritten. -/
theorem Memory.read_of_lt {m : Memory} {a : Nat} (h : ∀ c ∈ m, a < c.1) : Memory.read m a = unwrittenByte := by
  induction m with
  | nil => rfl
  | cons c m ih =>
    obtain ⟨hc, hm⟩ := List.forall_mem_cons.mp h
    rw [Memory.read, if_neg (Nat.ne_of_gt hc), ih hm]

theorem Memory.read_cons_self (k : Nat) (v : Byte) (m : Memory) : Memory.read ((k, v) :: m) k = v := if_pos rfl

theorem Memory.read_cons_of_ne {k a : Nat} (h : k ≠ a) (v : Byte) (m : Memory) :
    Memory.read ((k, v) :: m) a = Memory.read m a := if_neg h

/-- A canonical memory that lists a byte does not read as one that lists none. -/
theorem Memory.read_head_ne_unwritten {k : Nat} {v : Byte} {m : Memory} (hw : Memory.wf ((k, v) :: m) = true) :
    Memory.read ((k, v) :: m) k ≠ unwrittenByte := by
  rw [Memory.read_cons_self]
  exact ((Memory.wf_cons k v m).mp hw).1

/-- A canonical memory holds a written byte at its first address, so a canonical memory that reads alike there starts no later. -/
theorem Memory.head_le_of_read_eq {k k' : Nat} {v v' : Byte} {m m' : Memory} (hw : Memory.wf ((k, v) :: m) = true)
    (hw' : Memory.wf ((k', v') :: m') = true)
    (h : Memory.read ((k, v) :: m) k = Memory.read ((k', v') :: m') k) : k' ≤ k := by
  obtain ⟨_, habove', _⟩ := (Memory.wf_cons k' v' m').mp hw'
  refine Nat.le_of_not_lt fun hlt => ?_
  have hbelow : ∀ c ∈ (k', v') :: m', k < c.1 :=
    List.forall_mem_cons.mpr ⟨hlt, fun c hc => lt_trans hlt (habove' c hc)⟩
  exact Memory.read_head_ne_unwritten hw (h.trans (Memory.read_of_lt hbelow))

/-- Canonical memories that read alike are equal: their heads agree, and so do the reads of their tails. -/
theorem Memory.eq_of_read_eq {m m' : Memory} (hw : Memory.wf m = true) (hw' : Memory.wf m' = true)
    (h : ∀ a, Memory.read m a = Memory.read m' a) : m = m' := by
  induction m generalizing m' with
  | nil =>
    cases m' with
    | nil => rfl
    | cons c' m' => exact absurd (h c'.1).symm (Memory.read_head_ne_unwritten hw')
  | cons c m ih =>
    obtain ⟨k, v⟩ := c
    cases m' with
    | nil => exact absurd (h k) (Memory.read_head_ne_unwritten hw)
    | cons c' m' =>
      obtain ⟨k', v'⟩ := c'
      obtain rfl : k = k' :=
        Nat.le_antisymm (Memory.head_le_of_read_eq hw' hw (h k').symm) (Memory.head_le_of_read_eq hw hw' (h k))
      obtain rfl : v = v' := by simpa only [Memory.read_cons_self] using h k
      obtain ⟨_, habove, htail⟩ := (Memory.wf_cons k v m).mp hw
      obtain ⟨_, habove', htail'⟩ := (Memory.wf_cons k v m').mp hw'
      have hreads (a : Nat) : Memory.read m a = Memory.read m' a := by
        by_cases ha : k = a
        · rw [← ha, Memory.read_of_lt habove, Memory.read_of_lt habove']
        · simpa only [Memory.read_cons_of_ne ha] using h a
      rw [ih htail htail' hreads]

/-- Settles O10: `Memory.eq_of_read_eq`, an induction along the two lists. -/
theorem equalReadsMakeEqualMemories : Obligations.EqualReadsMakeEqualMemories :=
  fun _ _ => Memory.eq_of_read_eq

/-! ### Instructions that make no access -/

/-- The change of O16: another memory. -/
def State.withMemory (m : Memory) (s : State) : State := { s with mem := m }

/-- The operations on registers and pc do not see memory. -/
theorem State.withMemory_unseen (m : Memory) : Unseen (State.withMemory m) where
  cfg _ := rfl
  pc _ := rfl
  readReg _ _ := rfl
  writeReg s r v := by unfold State.writeReg; split <;> rfl
  setPc _ _ := rfl

/-- Settles O16: the change of memory is unseen by every instruction that makes no access. -/
theorem otherInstructionsNeverTouchMemory : Obligations.OtherInstructionsNeverTouchMemory :=
  fun _ s m hi => (State.withMemory_unseen m).exec s hi

/-! ### The word a fetch sees -/

/-- A step that does not halt runs the word its fetch gives (70_reset_and_hazards.md section 6). -/
theorem step_of_fetch {s : State} {w : Word} (hpc : s.pc ≠ s.cfg.haltPc) (hf : fetch s = .next w) :
    step s = runWord w s := by
  rw [step, if_neg hpc, hf, andThen_next]

/-- A fetch reads the double word stored at its pc: `t` may differ from `s` in registers and pc, and in memory by that store. -/
theorem fetch_of_stored {s t : State} {v : Word} (hA : Accessible s t.pc .double) (hsys : SameSystem s t)
    (hmem : t.mem = (s.setCell t.pc .double v).mem) : fetch t = .next v := by
  obtain ⟨hcfg, _, hpaging, _⟩ := hsys
  have hA' : Accessible t t.pc .double := by simpa only [Accessible, Permitted, InRange, hcfg, hpaging] using hA
  have hcell : t.cell t.pc .double = v := by
    rw [← s.cell_setCell_double t.pc v, State.cell, State.cell, hcfg, hmem, State.setCell_cfg]
  rw [fetch, memRead_of_accessible hA', hcell]

/-- A store that may be made writes its cell and goes on to the next instruction (43_group2_load_store.md R135). -/
theorem store_of_accessible {s : State} {w : Width} {rd : Reg} {imm : ImmS} (r1 : Reg)
    (hA : Accessible s (s.effAddr rd imm) w) :
    store w rd r1 imm s = .next (s.setCell (s.effAddr rd imm) w (s.readReg r1)).advance := by
  rw [store, memWrite_of_accessible hA, andThen_next]

/-- Settles O23: after the store and the advance to pc + 8, memory holds the word where the next fetch reads. -/
theorem fetchSeesThePrecedingStore : Obligations.FetchSeesThePrecedingStore := by
  intro rd r1 imm s haddr hA
  have hf : fetch (s.setCell (s.pc + 8) .double (s.readReg r1)).advance = .next (s.readReg r1) :=
    fetch_of_stored hA ⟨rfl, rfl, rfl, rfl⟩ rfl
  refine ⟨_, ?completes, rfl, hf, fun hpc => step_of_fetch hpc hf⟩
  case completes =>
    rw [← haddr] at hA ⊢
    exact store_of_accessible r1 hA

/-- Placing a 64-bit word writes the double word at the pc. -/
theorem State.withFetchWord_eq (s : State) (w : Word) : s.withFetchWord 64 w.toNat = s.setCell s.pc .double w := by
  rw [State.withFetchWord, State.placeWord, Nat.mod_eq_of_lt w.isLt, BitVec.ofNat_toNat, BitVec.setWidth_eq]

/-- Settles O60: placing a word is a write of the cell at the pc, and the fetch reads that cell. -/
theorem placedWordIsRunNext : Obligations.PlacedWordIsRunNext := by
  intro s w hpc hA
  rw [State.withFetchWord_eq]
  have hf : fetch (s.setCell s.pc .double w) = .next w := fetch_of_stored hA (s.sameSystem_setCell _ _ _) rfl
  exact ⟨s.sameRegisters_setCell _ _ _, rfl, s.sameSystem_setCell _ _ _, s.sameMemoryOutside_setCell _ .double _, hf,
    step_of_fetch (s := s.setCell s.pc .double w) hpc hf⟩

/-! ### Alignment -/

/-- A misaligned access is refused where alignment is required, before its range is looked at (20_memory.md R46). -/
theorem checkAccess_of_misaligned {s : State} {a : Word} {w : Width} (hp : s.paging = none)
    (ha : s.cfg.alignRequired = true) (hm : a.toNat % w.bytes ≠ 0) :
    checkAccess s a w = .refused (.misaligned a w) := by
  simp [checkAccess, hp, ha, hm]

theorem memRead_of_misaligned {s : State} {a : Word} {w : Width} (hp : s.paging = none)
    (ha : s.cfg.alignRequired = true) (hm : a.toNat % w.bytes ≠ 0) : memRead s a w = .refused (.misaligned a w) := by
  rw [memRead, checkAccess_of_misaligned hp ha hm, andThen_refused]

theorem memWrite_of_misaligned {s : State} {a : Word} {w : Width} (hp : s.paging = none)
    (ha : s.cfg.alignRequired = true) (hm : a.toNat % w.bytes ≠ 0) (v : Word) :
    memWrite s a w v = .refused (.misaligned a w) := by
  rw [memWrite, checkAccess_of_misaligned hp ha hm, andThen_refused]

/-- Settles O59: with the switch on the check refuses, with it off every access is permitted and only the range counts. -/
theorem requiredAlignmentRefusesMisalignedAccesses : Obligations.RequiredAlignmentRefusesMisalignedAccesses := by
  intro s a w hp
  refine ⟨fun ha hm => ?access, fun ha hpc hm => ?step, fun ha => ?off⟩
  case access => exact ⟨memRead_of_misaligned hp ha hm, memWrite_of_misaligned hp ha hm⟩
  case step => rw [step, if_neg hpc, fetch, memRead_of_misaligned hp ha hm, andThen_refused]
  case off =>
    have hperm : Permitted s a w := ⟨hp, .inl ha⟩
    exact ⟨fun hr => ⟨memRead_of_accessible ⟨hperm, hr⟩, fun _ => memWrite_of_accessible ⟨hperm, hr⟩⟩,
      fun hr => ⟨memRead_of_outOfRange hperm hr, fun _ => memWrite_of_outOfRange hperm hr⟩⟩

end Machine

end Sys2Proof
end

section
/-! PROOFS. The encoding family (30_encoding.md): the fields of a word, what the decoder and the encoder do with them, widened
immediates, which instructions are refused, and the step as the decoded instruction. -/

namespace Sys2Proof

open Machine

/-! ### Fields as numbers -/

section Fields

variable (w : Word)

theorem opcodeField_toNat : (opcodeField w).toNat = w.toNat % 2 ^ 8 := by
  rw [opcodeField, BitVec.extractLsb'_toNat, Nat.shiftRight_zero]

theorem regField_val (lo : Nat) : (regField w lo).val = w.toNat / 2 ^ lo % 2 ^ 5 := by
  calc (regField w lo).val = w.toNat >>> lo % 2 ^ 5 := BitVec.extractLsb'_toNat lo 5 w
    _ = w.toNat / 2 ^ lo % 2 ^ 5 := by rw [Nat.shiftRight_eq_div_pow]

theorem fieldR1_val : (fieldR1 w).val = w.toNat / 2 ^ 8 % 2 ^ 5 := regField_val w 8

theorem fieldR2_val : (fieldR2 w).val = w.toNat / 2 ^ 13 % 2 ^ 5 := regField_val w 13

theorem fieldRdR_val : (fieldRdR w).val = w.toNat / 2 ^ 18 % 2 ^ 5 := regField_val w 18

theorem fieldRdS_val : (fieldRdS w).val = w.toNat / 2 ^ 13 % 2 ^ 5 := regField_val w 13

theorem fieldImmS_toNat : (fieldImmS w).toNat = w.toNat / 2 ^ 18 := by
  rw [fieldImmS, BitVec.extractLsb'_toNat, Nat.shiftRight_eq_div_pow]
  omega

theorem fieldImmL_toNat : (fieldImmL w).toNat = w.toNat / 2 ^ 13 := by
  rw [fieldImmL, BitVec.extractLsb'_toNat, Nat.shiftRight_eq_div_pow]
  omega

end Fields

/-! ### The three formats: encoded fields read back

No sum of the encoding formulas (30_encoding.md section 5) reaches 2^64, so each field is a quotient of that sum. -/

section Formats

variable (op : BitVec 8) (rd r1 r2 : Reg)

theorem encodeR_toNat :
    (encodeR op rd r1 r2).toNat = op.toNat + r1.val * 2 ^ 8 + r2.val * 2 ^ 13 + rd.val * 2 ^ 18 := by
  rw [encodeR, BitVec.toNat_ofNat]
  omega

theorem encodeS_toNat (imm : ImmS) :
    (encodeS op rd r1 imm).toNat = op.toNat + r1.val * 2 ^ 8 + rd.val * 2 ^ 13 + imm.toNat * 2 ^ 18 := by
  rw [encodeS, BitVec.toNat_ofNat]
  omega

theorem encodeL_toNat (imm : ImmL) :
    (encodeL op r1 imm).toNat = op.toNat + r1.val * 2 ^ 8 + imm.toNat * 2 ^ 13 := by
  rw [encodeL, BitVec.toNat_ofNat]
  omega

theorem fieldRdR_encodeR : fieldRdR (encodeR op rd r1 r2) = rd := by
  rw [Fin.ext_iff, fieldRdR_val, encodeR_toNat]
  omega

theorem fieldR1_encodeR : fieldR1 (encodeR op rd r1 r2) = r1 := by
  rw [Fin.ext_iff, fieldR1_val, encodeR_toNat]
  omega

theorem fieldR2_encodeR : fieldR2 (encodeR op rd r1 r2) = r2 := by
  rw [Fin.ext_iff, fieldR2_val, encodeR_toNat]
  omega

theorem fieldRdS_encodeS (imm : ImmS) : fieldRdS (encodeS op rd r1 imm) = rd := by
  rw [Fin.ext_iff, fieldRdS_val, encodeS_toNat]
  omega

theorem fieldR1_encodeS (imm : ImmS) : fieldR1 (encodeS op rd r1 imm) = r1 := by
  rw [Fin.ext_iff, fieldR1_val, encodeS_toNat]
  omega

theorem fieldImmS_encodeS (imm : ImmS) : fieldImmS (encodeS op rd r1 imm) = imm := by
  rw [← BitVec.toNat_inj, fieldImmS_toNat, encodeS_toNat]
  omega

theorem fieldR1_encodeL (imm : ImmL) : fieldR1 (encodeL op r1 imm) = r1 := by
  rw [Fin.ext_iff, fieldR1_val, encodeL_toNat]
  omega

theorem fieldImmL_encodeL (imm : ImmL) : fieldImmL (encodeL op r1 imm) = imm := by
  rw [← BitVec.toNat_inj, fieldImmL_toNat, encodeL_toNat]
  omega

end Formats

/-! ### The three formats: a word rebuilt from its fields

The masks are those of `usedBits`: a field that is not put back leaves its bits zero (30_encoding.md R67, R76). -/

section Masks

variable (w : Word)

/-- A mask of the `n` low bits takes the remainder modulo `2^n`. -/
theorem toNat_and_lowMask {n : Nat} (hn : n ≤ 64) : (w &&& lowMask n).toNat = w.toNat % 2 ^ n := by
  have hmask : (lowMask n).toNat = 2 ^ n - 1 :=
    Nat.mod_eq_of_lt (lt_of_lt_of_le (Nat.sub_lt (Nat.two_pow_pos n) one_pos) (Nat.pow_le_pow_right two_pos hn))
  rw [BitVec.toNat_and, hmask, Nat.and_two_pow_sub_one_eq_mod]

/-- The mask of `not` keeps bits 12 to 0 and the destination field, bits 22 to 18. -/
theorem toNat_and_notMask : (w &&& 0x7C1FFF).toNat = w.toNat % 2 ^ 13 + w.toNat / 2 ^ 18 % 2 ^ 5 * 2 ^ 18 := by
  have hhigh : (w.toNat &&& 0x7C1FFF) / 2 ^ 18 = w.toNat / 2 ^ 18 % 2 ^ 5 :=
    Nat.and_div_two_pow.trans (Nat.and_two_pow_sub_one_eq_mod _ 5)
  have hlow : (w.toNat &&& 0x7C1FFF) % 2 ^ 18 = w.toNat % 2 ^ 18 % 2 ^ 13 :=
    Nat.and_mod_two_pow.trans (Nat.and_two_pow_sub_one_eq_mod _ 13)
  have hand : (w &&& 0x7C1FFF).toNat = w.toNat &&& 0x7C1FFF := rfl
  omega

variable {w : Word} {op : BitVec 8}

theorem encodeR_fields (hop : opcodeField w = op) :
    encodeR op (fieldRdR w) (fieldR1 w) (fieldR2 w) = w &&& 0x7FFFFF := by
  have hmask : (w &&& 0x7FFFFF).toNat = w.toNat % 2 ^ 23 := toNat_and_lowMask w (n := 23) (by decide)
  rw [← hop, ← BitVec.toNat_inj, hmask, encodeR_toNat, opcodeField_toNat, fieldRdR_val, fieldR1_val, fieldR2_val]
  omega

theorem encodeR_fields_without_r2 (hop : opcodeField w = op) :
    encodeR op (fieldRdR w) (fieldR1 w) 0 = w &&& 0x7C1FFF := by
  rw [← hop, ← BitVec.toNat_inj, toNat_and_notMask, encodeR_toNat, opcodeField_toNat, fieldRdR_val, fieldR1_val,
    Fin.val_zero]
  omega

theorem encodeR_fields_without_rd (hop : opcodeField w = op) :
    encodeR op 0 (fieldR1 w) (fieldR2 w) = w &&& 0x3FFFF := by
  have hmask : (w &&& 0x3FFFF).toNat = w.toNat % 2 ^ 18 := toNat_and_lowMask w (n := 18) (by decide)
  rw [← hop, ← BitVec.toNat_inj, hmask, encodeR_toNat, opcodeField_toNat, fieldR1_val, fieldR2_val, Fin.val_zero]
  omega

theorem encodeS_fields (hop : opcodeField w = op) :
    encodeS op (fieldRdS w) (fieldR1 w) (fieldImmS w) = w &&& 0xFFFFFFFFFFFFFFFF := by
  have hmask : (w &&& 0xFFFFFFFFFFFFFFFF).toNat = w.toNat % 2 ^ 64 := toNat_and_lowMask w (n := 64) (by decide)
  rw [← hop, ← BitVec.toNat_inj, hmask, encodeS_toNat, opcodeField_toNat, fieldRdS_val, fieldR1_val, fieldImmS_toNat]
  omega

theorem encodeS_fields_without_imm (hop : opcodeField w = op) :
    encodeS op (fieldRdS w) (fieldR1 w) 0 = w &&& 0x3FFFF := by
  have hmask : (w &&& 0x3FFFF).toNat = w.toNat % 2 ^ 18 := toNat_and_lowMask w (n := 18) (by decide)
  have hzero : (0 : ImmS).toNat = 0 := rfl
  rw [← hop, ← BitVec.toNat_inj, hmask, encodeS_toNat, opcodeField_toNat, fieldRdS_val, fieldR1_val, hzero]
  omega

theorem encodeL_fields (hop : opcodeField w = op) :
    encodeL op (fieldR1 w) (fieldImmL w) = w &&& 0xFFFFFFFFFFFFFFFF := by
  have hmask : (w &&& 0xFFFFFFFFFFFFFFFF).toNat = w.toNat % 2 ^ 64 := toNat_and_lowMask w (n := 64) (by decide)
  rw [← hop, ← BitVec.toNat_inj, hmask, encodeL_toNat, opcodeField_toNat, fieldR1_val, fieldImmL_toNat]
  omega

end Masks

/-! ### What the decoder does, said once -/

/-- The operands of an instruction are the fields of `w` that its format places them in (30_encoding.md R61 to R63). -/
def Instr.ReadFrom (w : Word) : Instr → Prop
  | .not rd r1 => rd = fieldRdR w ∧ r1 = fieldR1 w
  | .retn r1 r2 => r1 = fieldR1 w ∧ r2 = fieldR2 w
  | .pull rd r1 => rd = fieldRdS w ∧ r1 = fieldR1 w
  | .jal r1 imm => r1 = fieldR1 w ∧ imm = fieldImmL w
  | .andr rd r1 r2 | .xorr rd r1 r2 | .orr rd r1 r2 | .llsr rd r1 r2 | .lrsr rd r1 r2 | .alsr rd r1 r2
  | .arsr rd r1 r2 | .addr rd r1 r2 | .subr rd r1 r2 | .umulr rd r1 r2 | .smulr rd r1 r2 | .udivr rd r1 r2
  | .sdivr rd r1 r2 | .call rd r1 r2 => rd = fieldRdR w ∧ r1 = fieldR1 w ∧ r2 = fieldR2 w
  | .andi rd r1 imm | .xori rd r1 imm | .ori rd r1 imm | .cnt rd r1 imm | .llsi rd r1 imm | .lrsi rd r1 imm
  | .alsi rd r1 imm | .arsi rd r1 imm | .addi rd r1 imm | .subi rd r1 imm | .umuli rd r1 imm | .smuli rd r1 imm
  | .udivi rd r1 imm | .sdivi rd r1 imm | .push rd r1 imm | .ldb rd r1 imm | .ldh rd r1 imm | .ldw rd r1 imm
  | .ldd rd r1 imm | .stb rd r1 imm | .sth rd r1 imm | .stw rd r1 imm | .std rd r1 imm | .jalr rd r1 imm
  | .je rd r1 imm | .jne rd r1 imm | .jgu rd r1 imm | .jleu rd r1 imm =>
    rd = fieldRdS w ∧ r1 = fieldR1 w ∧ imm = fieldImmS w

section Decoder

variable {w : Word} {i : Instr}

/-- What a word decodes to has the word's opcode and its fields. -/
theorem opcode_and_readFrom_of_decodeWord (h : decodeWord w = .ok i) : opcodeField w = i.opcode ∧ i.ReadFrom w := by
  unfold decodeWord at h
  split at h <;> cases h <;> exact ⟨BitVec.eq_of_toNat_eq ‹_›, by simp only [Instr.ReadFrom, and_self]⟩

/-- A word decodes to the instruction that has its opcode and its fields. -/
theorem decodeWord_of_readFrom (hop : opcodeField w = i.opcode) (hf : i.ReadFrom w) : decodeWord w = .ok i := by
  rw [decodeWord, hop]
  cases i
  case not | retn | pull | jal =>
    obtain ⟨rfl, rfl⟩ := hf
    rfl
  all_goals
    obtain ⟨rfl, rfl, rfl⟩ := hf
    rfl

/-- The decoder: the opcode selects the instruction and the fields are its operands (30_encoding.md R64, R68). -/
theorem decodeWord_eq_ok_iff : decodeWord w = .ok i ↔ opcodeField w = i.opcode ∧ i.ReadFrom w :=
  ⟨opcode_and_readFrom_of_decodeWord, fun ⟨hop, hf⟩ => decodeWord_of_readFrom hop hf⟩

/-- A word that decodes to nothing has an opcode above the table's, and is rejected by it (30_encoding.md R70). -/
theorem decodeWord_eq_error {e : DecodeError} (h : decodeWord w = .error e) :
    0x2D < (opcodeField w).toNat ∧ e = .undefinedOpcode (opcodeField w) := by
  unfold decodeWord at h
  split at h <;> cases h
  refine ⟨?_, rfl⟩
  simp only [imp_false] at *
  omega

end Decoder

/-- The opcodes of the table are 0x00 to 0x2D (30_encoding.md R68). -/
theorem Instr.opcode_le (i : Instr) : i.opcode.toNat ≤ 0x2D := by
  cases i <;> simp only [Instr.opcode] <;> decide

/-! ### Encode, then decode -/

/-- The low byte of an instruction's word is its opcode (30_encoding.md R64). -/
theorem opcodeField_encode (i : Instr) : opcodeField (encode i) = i.opcode := by
  cases i
  case jal => exact Laws.OpcodeByte.encodeL_opcode ..
  case andr | xorr | orr | not | llsr | lrsr | alsr | arsr | addr | subr | umulr | smulr | udivr | sdivr | call | retn =>
    exact Laws.OpcodeByte.encodeR_opcode ..
  all_goals exact Laws.OpcodeByte.encodeS_opcode ..

/-- The operands of an instruction are the fields of its word. -/
theorem readFrom_encode (i : Instr) : i.ReadFrom (encode i) := by
  cases i
  case jal => exact ⟨(fieldR1_encodeL ..).symm, (fieldImmL_encodeL ..).symm⟩
  case not => exact ⟨(fieldRdR_encodeR ..).symm, (fieldR1_encodeR ..).symm⟩
  case retn => exact ⟨(fieldR1_encodeR ..).symm, (fieldR2_encodeR ..).symm⟩
  case pull => exact ⟨(fieldRdS_encodeS ..).symm, (fieldR1_encodeS ..).symm⟩
  case andr | xorr | orr | llsr | lrsr | alsr | arsr | addr | subr | umulr | smulr | udivr | sdivr | call =>
    exact ⟨(fieldRdR_encodeR ..).symm, (fieldR1_encodeR ..).symm, (fieldR2_encodeR ..).symm⟩
  all_goals exact ⟨(fieldRdS_encodeS ..).symm, (fieldR1_encodeS ..).symm, (fieldImmS_encodeS ..).symm⟩

/-- Settles O1: the word of an instruction has its opcode and its operands, which is all the decoder reads. -/
theorem decodeOfEncodeIsTheInstruction : Obligations.DecodeOfEncodeIsTheInstruction :=
  fun i => decodeWord_eq_ok_iff.mpr ⟨opcodeField_encode i, readFrom_encode i⟩

/-! ### Decode, then encode -/

/-- Settles O2: the encoder puts the fields of the word back, and no others. -/
theorem encodeOfDecodeIsTheCanonicalWord : Obligations.EncodeOfDecodeIsTheCanonicalWord := by
  intro w i h
  obtain ⟨hop, hf⟩ := decodeWord_eq_ok_iff.mp h
  cases i
  case not =>
    obtain ⟨rfl, rfl⟩ := hf
    exact encodeR_fields_without_r2 hop
  case retn =>
    obtain ⟨rfl, rfl⟩ := hf
    exact encodeR_fields_without_rd hop
  case pull =>
    obtain ⟨rfl, rfl⟩ := hf
    exact encodeS_fields_without_imm hop
  case jal =>
    obtain ⟨rfl, rfl⟩ := hf
    exact encodeL_fields hop
  case andr | xorr | orr | llsr | lrsr | alsr | arsr | addr | subr | umulr | smulr | udivr | sdivr | call =>
    obtain ⟨rfl, rfl, rfl⟩ := hf
    exact encodeR_fields hop
  all_goals
    obtain ⟨rfl, rfl, rfl⟩ := hf
    exact encodeS_fields hop

/-! ### Ignored bits -/

/-- `usedBits` as a function of the opcode: below 0x20 the even opcodes are the R type (30_encoding.md R68). -/
def usedBitsOfOpcode (op : BitVec 8) : Word :=
  if op = 0x06 then 0x7C1FFF
  else if op = 0x1E ∨ op = 0x1F then 0x3FFFF
  else if op.toNat < 0x20 ∧ op.toNat % 2 = 0 then 0x7FFFFF
  else 0xFFFFFFFFFFFFFFFF

theorem usedBits_eq_usedBitsOfOpcode (i : Instr) : usedBits i = usedBitsOfOpcode i.opcode := by
  cases i <;> simp [usedBits, usedBitsOfOpcode, Instr.opcode]

/-- Every instruction uses the whole opcode byte. -/
theorem opcodeField_and_usedBits (w : Word) (i : Instr) : opcodeField (w &&& usedBits i) = opcodeField w := by
  have hbyte : opcodeField (usedBits i) = BitVec.allOnes 8 := by
    rw [usedBits_eq_usedBitsOfOpcode, usedBitsOfOpcode]
    split_ifs <;> decide
  calc opcodeField (w &&& usedBits i) = opcodeField w &&& opcodeField (usedBits i) := BitVec.extractLsb'_and
    _ = opcodeField w := by rw [hbyte, BitVec.and_allOnes]

theorem encode_injective : Function.Injective encode := by
  intro i j h
  have hij : (.ok i : Except DecodeError Instr) = .ok j :=
    calc .ok i = decodeWord (encode i) := (decodeOfEncodeIsTheInstruction i).symm
      _ = decodeWord (encode j) := by rw [h]
      _ = .ok j := decodeOfEncodeIsTheInstruction j
  exact Except.ok.inj hij

/-- A word with the opcode of an instruction decodes, to an instruction with that opcode. -/
theorem decodeWord_of_opcode {w : Word} (h : (opcodeField w).toNat ≤ 0x2D) :
    ∃ i, decodeWord w = .ok i ∧ opcodeField w = i.opcode := by
  cases hd : decodeWord w with
  | ok i => exact ⟨i, rfl, (decodeWord_eq_ok_iff.mp hd).1⟩
  | error e => exact absurd (decodeWord_eq_error hd).1 (by omega)

/-- Settles O3: `w'` has the opcode of `i`, so it decodes to an instruction that uses the same bits; both have the same
canonical word, so they are one instruction. -/
theorem ignoredBitsHaveNoEffect : Obligations.IgnoredBitsHaveNoEffect := by
  intro w w' i hw hagree
  have hcanon : encode i = w' &&& usedBits i := (encodeOfDecodeIsTheCanonicalWord w i hw).trans hagree
  have hop : opcodeField w' = i.opcode := by
    rw [← opcodeField_and_usedBits w' i, ← hcanon, opcodeField_encode]
  obtain ⟨j, hj, hop'⟩ := decodeWord_of_opcode (hop ▸ i.opcode_le)
  have hused : usedBits j = usedBits i := by
    rw [usedBits_eq_usedBitsOfOpcode, usedBits_eq_usedBitsOfOpcode, ← hop', hop]
  have hji : j = i := encode_injective (by rw [encodeOfDecodeIsTheCanonicalWord w' j hj, hused, hcanon])
  exact hji ▸ hj

/-- Settles O4: the low byte is the opcode field, and the decoder answers an instruction or an error by that field alone. -/
theorem exactlyTheTableOpcodesDecode : Obligations.ExactlyTheTableOpcodesDecode := by
  intro w
  have hfield : (opcodeField w).toNat = w.toNat % 256 := opcodeField_toNat w
  refine ⟨fun hle => ?inTable, fun hgt => ?undefined⟩
  case inTable =>
    obtain ⟨i, hi, hop⟩ := decodeWord_of_opcode (hfield ▸ hle)
    exact ⟨i, hi, by rw [← hop, hfield]⟩
  case undefined =>
    cases hd : decodeWord w with
    | ok i =>
      have hle := (decodeWord_eq_ok_iff.mp hd).1 ▸ i.opcode_le
      omega
    | error e =>
      have hop : opcodeField w = BitVec.ofNat 8 w.toNat := BitVec.eq_of_toNat_eq hfield
      rw [(decodeWord_eq_error hd).2, hop]

/-! ### Widened immediates -/

namespace Machine

/-- Sign extension by arithmetic: the upper half of the field's values stands for the negative numbers (00_scope.md R9). -/
theorem widen_sign_toNat {n : Nat} (v : BitVec n) (hn : n ≤ 64) :
    (widen .sign v).toNat = if v.toNat < 2 ^ (n - 1) then v.toNat else v.toNat + 2 ^ 64 - 2 ^ n := by
  have hpow : 2 ^ n ≤ 2 ^ 64 := Nat.pow_le_pow_right two_pos hn
  rw [widen, BitVec.toNat_signExtend, BitVec.toNat_setWidth_of_le hn, BitVec.msb_eq_decide]
  by_cases hneg : 2 ^ (n - 1) ≤ v.toNat
  · rw [if_pos (decide_eq_true hneg), if_neg (Nat.not_lt.mpr hneg), Nat.add_sub_assoc hpow]
  · rw [if_neg (by simpa using hneg), if_pos (Nat.lt_of_not_le hneg), Nat.add_zero]

theorem widen_zero_toNat {n : Nat} (v : BitVec n) (hn : n ≤ 64) : (widen .zero v).toNat = v.toNat :=
  BitVec.toNat_setWidth_of_le hn

/-- Settles O6: the two ways to widen a field, at the widths 46 and 51. -/
theorem immediateFieldsAreWidened : Obligations.ImmediateFieldsAreWidened := by
  intro s v u
  rw [State.immS, State.immL]
  refine ⟨fun h => ?sign, fun h => ?zero⟩
  case sign =>
    rw [h]
    exact ⟨widen_sign_toNat v (by decide), widen_sign_toNat u (by decide)⟩
  case zero =>
    rw [h]
    exact ⟨widen_zero_toNat v (by decide), widen_zero_toNat u (by decide)⟩

/-! ### Which instructions are refused -/

section Refusals

variable {s : State} {r : Refusal}

/-- Writing registers takes no permission away. -/
theorem permitted_writeReg_iff {q : Reg} {v a : Word} {w : Width} :
    Permitted (s.writeReg q v) a w ↔ Permitted s a w := by
  rw [Permitted, Permitted, State.writeReg_paging, State.writeReg_cfg]

/-- Writing a cell takes no permission away. -/
theorem permitted_setCell_iff {b v a : Word} {w' w : Width} :
    Permitted (s.setCell b w' v) a w ↔ Permitted s a w := Iff.rfl

theorem finish_ne_refused {rd : Reg} {v : Word} : finish s rd v ≠ .refused r := nofun

theorem branch_ne_refused {taken : Bool} {imm : ImmS} : branch taken imm s ≠ .refused r := nofun

theorem divide_ne_refused {q : Word → Word → Word} {rd : Reg} {a b : Word} : divide q s rd a b ≠ .refused r := by
  unfold divide
  split
  · exact nofun
  · exact finish_ne_refused

theorem load_eq_refused {w : Width} {rd r1 : Reg} {imm : ImmS} (h : load w rd r1 imm s = .refused r) :
    ∃ a w, ¬ Permitted s a w := by
  rcases andThen_eq_refused h with h | ⟨_, _, h⟩
  · exact ⟨_, _, memRead_eq_refused h⟩
  · exact absurd h finish_ne_refused

theorem store_eq_refused {w : Width} {rd r1 : Reg} {imm : ImmS} (h : store w rd r1 imm s = .refused r) :
    ∃ a w, ¬ Permitted s a w := by
  rcases andThen_eq_refused h with h | ⟨_, _, h⟩
  · exact ⟨_, _, memWrite_eq_refused h⟩
  · cases h

theorem execPush_eq_refused {rd r1 : Reg} {imm : ImmS} (h : execPush rd r1 imm s = .refused r) :
    ∃ a w, ¬ Permitted s a w := by
  rcases andThen_eq_refused h with h | ⟨_, _, h⟩
  · exact ⟨_, _, memWrite_eq_refused h⟩
  · cases h

theorem execPull_eq_refused {rd r1 : Reg} (h : execPull rd r1 s = .refused r) : ∃ a w, ¬ Permitted s a w := by
  rcases andThen_eq_refused h with h | ⟨_, _, h⟩
  · exact ⟨_, _, memRead_eq_refused h⟩
  · cases h

theorem execCall_eq_refused {rd r1 r2 : Reg} (h : execCall rd r1 r2 s = .refused r) : ∃ a w, ¬ Permitted s a w := by
  rcases andThen_eq_refused h with h | ⟨t, ht, h⟩
  · exact ⟨_, _, memWrite_eq_refused h⟩
  obtain ⟨_, rfl⟩ := memWrite_eq_next ht
  rcases andThen_eq_refused h with h | ⟨_, _, h⟩
  · exact ⟨_, _, permitted_setCell_iff.not.mp (memWrite_eq_refused h)⟩
  · cases h

theorem execRetn_eq_refused {r1 r2 : Reg} (h : execRetn r1 r2 s = .refused r) : ∃ a w, ¬ Permitted s a w := by
  rcases andThen_eq_refused h with h | ⟨bp, _, h⟩
  · exact ⟨_, _, permitted_writeReg_iff.not.mp (memRead_eq_refused h)⟩
  rcases andThen_eq_refused h with h | ⟨_, _, h⟩
  · exact ⟨_, _, (permitted_writeReg_iff.trans permitted_writeReg_iff).not.mp (memRead_eq_refused h)⟩
  · cases h

theorem execJleu_eq_refused {rd r1 : Reg} {imm : ImmS} (h : execJleu rd r1 imm s = .refused r) :
    s.cfg.branchReading = .pseudocode := by
  cases hr : s.cfg.branchReading with
  | prose =>
    rw [execJleu, hr] at h
    exact absurd h branch_ne_refused
  | pseudocode => rfl

/-- Everything that can refuse an instruction: an access that is not permitted (20_memory.md R46, 45_pcall.md R167), or the
cut text of `jleu` (44_group2_jumps.md R151). -/
theorem exec_eq_refused {i : Instr} (h : exec i s = .refused r) :
    (∃ a w, ¬ Permitted s a w) ∨ s.cfg.branchReading = .pseudocode := by
  cases i
  case ldb | ldh | ldw | ldd => exact .inl (load_eq_refused h)
  case stb | sth | stw | std => exact .inl (store_eq_refused h)
  case push => exact .inl (execPush_eq_refused h)
  case pull => exact .inl (execPull_eq_refused h)
  case call => exact .inl (execCall_eq_refused h)
  case retn => exact .inl (execRetn_eq_refused h)
  case jleu => exact .inr (execJleu_eq_refused h)
  case je | jne | jgu => exact absurd h branch_ne_refused
  case jal | jalr => cases h
  case udivr | udivi | sdivr | sdivi => exact absurd h divide_ne_refused
  all_goals exact absurd h finish_ne_refused

end Refusals

/-- Settles O19: at the default switches every access is permitted and `jleu` has a reading. -/
theorem noInstructionIsRefusedAtTheDefaults : Obligations.NoInstructionIsRefusedAtTheDefaults := by
  intro i s r hpaging halign hprose h
  rcases exec_eq_refused h with ⟨a, w, hnot⟩ | hpseudo
  · exact hnot ⟨hpaging, .inl halign⟩
  · rw [hprose] at hpseudo
    cases hpseudo

/-! ### The step as the decoded instruction -/

/-- Bytes that decode with nothing left over are the word of their instruction. -/
theorem decodeWord_joinBytes_of_decodeBytes {o : ByteOrder} {bs : List Byte} {i : Instr} (hlen : bs.length = 8)
    (h : decodeBytes o bs = .ok (i, [])) : decodeWord (joinBytes o bs) = .ok i := by
  have happend := decodeBytes_append o [] hlen
  rw [List.append_nil, h] at happend
  cases hd : decodeWord (joinBytes o bs) with
  | ok j =>
    rw [hd] at happend
    cases happend
    rfl
  | error e =>
    rw [hd] at happend
    cases happend

/-- A step whose fetched word decodes is that instruction (70_reset_and_hazards.md section 6). -/
theorem runWord_of_decodeWord {s : State} {w : Word} {i : Instr} (h : decodeWord w = .ok i) : runWord w s = exec i s := by
  rw [runWord, h]

/-- Settles O21: the eight bytes at the pc are the cell the fetch reads. -/
theorem stepRunsTheDecodedInstruction : Obligations.StepRunsTheDecodedInstruction := by
  intro s i hpc hA hbytes
  have hdecode : decodeWord (s.cell s.pc .double) = .ok i :=
    decodeWord_joinBytes_of_decodeBytes (Memory.readBytes_length ..) hbytes
  calc step s = runWord (s.cell s.pc .double) s := step_of_fetch hpc (memRead_of_accessible hA)
    _ = exec i s := runWord_of_decodeWord hdecode

end Machine

end Sys2Proof
end

section
/-! PROOFS. The bitwise family (40_group0_bitwise.md): words that decode by their opcode alone, the results of group zero as
numbers, and what each of its sixteen instructions does and leaves alone. -/

namespace Sys2Proof

open Machine

/-! ### Words that decode by their opcode alone -/

theorem regField_eq_regAt (w : Word) (lo : Nat) : regField w lo = regAt w lo := Fin.ext (regField_val w lo)

theorem fieldImmS_eq_ofNat (w : Word) : fieldImmS w = BitVec.ofNat 46 (w.toNat / 2 ^ 18) := by
  rw [← fieldImmS_toNat, BitVec.ofNat_toNat, BitVec.setWidth_eq]

theorem opcodeField_eq_of_mod {w : Word} {op : BitVec 8} (h : w.toNat % 256 = op.toNat) : opcodeField w = op :=
  BitVec.eq_of_toNat_eq ((opcodeField_toNat w).trans h)

/-- The operands in the R type fields are what the statements' `regAt` reads (30_encoding.md R61). -/
theorem decodesR_of_readFrom {op : Nat} {mk : Reg → Reg → Reg → Instr}
    (hop : ∀ rd r1 r2, op = (mk rd r1 r2).opcode.toNat)
    (hread : ∀ w, (mk (fieldRdR w) (fieldR1 w) (fieldR2 w)).ReadFrom w) : DecodesR op mk := by
  intro w hw
  rw [← regField_eq_regAt, ← regField_eq_regAt, ← regField_eq_regAt]
  exact decodeWord_of_readFrom (opcodeField_eq_of_mod (hw.trans (hop _ _ _))) (hread w)

/-- The operands in the S type fields are what the statements' `regAt` and quotient read (30_encoding.md R62). -/
theorem decodesS_of_readFrom {op : Nat} {mk : Reg → Reg → ImmS → Instr}
    (hop : ∀ rd r1 imm, op = (mk rd r1 imm).opcode.toNat)
    (hread : ∀ w, (mk (fieldRdS w) (fieldR1 w) (fieldImmS w)).ReadFrom w) : DecodesS op mk := by
  intro w hw
  rw [← regField_eq_regAt, ← regField_eq_regAt, ← fieldImmS_eq_ofNat]
  exact decodeWord_of_readFrom (opcodeField_eq_of_mod (hw.trans (hop _ _ _))) (hread w)

namespace Machine

/-! ### The results of group zero as numbers -/

section Results

variable (v n : Word)

/-- One's complement by arithmetic (40_group0_bitwise.md R87). -/
theorem not_eq_ofNat : ~~~v = BitVec.ofNat 64 (2 ^ 64 - 1 - v.toNat) := by
  apply BitVec.eq_of_toNat_eq
  rw [BitVec.toNat_not, BitVec.toNat_ofNat]
  omega

theorem shiftLeft_eq :
    shiftLeft v n = if 64 ≤ n.toNat then 0 else BitVec.ofNat 64 (v.toNat * 2 ^ n.toNat % 2 ^ 64) := by
  have hbits : v <<< n.toNat = BitVec.ofNat 64 (v.toNat * 2 ^ n.toNat % 2 ^ 64) := by
    apply BitVec.eq_of_toNat_eq
    rw [BitVec.toNat_shiftLeft, BitVec.toNat_ofNat, Nat.shiftLeft_eq, Nat.mod_mod]
  rw [shiftLeft, hbits]

theorem shiftRight_eq :
    shiftRight v n = if 64 ≤ n.toNat then 0 else BitVec.ofNat 64 (v.toNat / 2 ^ n.toNat) := by
  have hbits : v >>> n.toNat = BitVec.ofNat 64 (v.toNat / 2 ^ n.toNat) := by
    rw [← Nat.shiftRight_eq_div_pow, ← BitVec.toNat_ushiftRight, BitVec.ofNat_toNat, BitVec.setWidth_eq]
  rw [shiftRight, hbits]

/-- The two left shifts are one function (93_implementation_defined.md G3; log 23). -/
theorem shiftLeftArith_eq_shiftLeft : shiftLeftArith v n = shiftLeft v n := rfl

theorem shiftLeftArith_eq :
    shiftLeftArith v n = if 64 ≤ n.toNat then 0 else BitVec.ofNat 64 (v.toNat * 2 ^ n.toNat % 2 ^ 64) :=
  (shiftLeftArith_eq_shiftLeft v n).trans (shiftLeft_eq v n)

/-- Sign fill is the floor of the signed quotient (93_implementation_defined.md G4; log 23). -/
theorem shiftRightArith_eq :
    shiftRightArith v n = if 64 ≤ n.toNat then 0 else BitVec.ofInt 64 (Int.fdiv v.toInt (2 ^ n.toNat)) := by
  have hbits : v.sshiftRight n.toNat = BitVec.ofInt 64 (Int.fdiv v.toInt (2 ^ n.toNat)) := by
    rw [BitVec.sshiftRight, Int.shiftRight_eq_div_pow, Int.fdiv_eq_ediv_of_nonneg _ (by positivity), Nat.cast_pow,
      Nat.cast_ofNat]
  rw [shiftRightArith, hbits]

/-! ### Counting bits -/

/-- The mask of the `k` low bits keeps exactly the positions below `k`. -/
theorem getLsbD_and_lowMask {i k : Nat} (hi : i < 64) :
    (v &&& lowMask k).getLsbD i = (v.getLsbD i && decide (i < k)) := by
  rw [BitVec.getLsbD_and, lowMask, BitVec.getLsbD_ofNat, Nat.testBit_two_pow_sub_one, decide_eq_true hi, Bool.true_and]

/-- Counting under a mask of the `k` low bits: the positions below `k` count as they are, the others not at all. -/
theorem popcount_and_lowMask {k : Nat} (hk : k ≤ 64) :
    popcount (v &&& lowMask k) = ((List.range k).filter fun i => v.getLsbD i).length := by
  have hsplit : List.range 64 = List.range k ++ (List.range (64 - k)).map (k + ·) := by
    rw [← List.range_add, Nat.add_sub_cancel' hk]
  have hlow : (List.range k).countP (fun i => (v &&& lowMask k).getLsbD i) =
      (List.range k).countP fun i => v.getLsbD i := by
    refine List.countP_congr fun i hi => ?_
    have hik : i < k := List.mem_range.mp hi
    rw [getLsbD_and_lowMask v (lt_of_lt_of_le hik hk), decide_eq_true hik, Bool.and_true]
  have hhigh : ((List.range (64 - k)).map (k + ·)).countP (fun i => (v &&& lowMask k).getLsbD i) = 0 := by
    refine List.countP_eq_zero.mpr fun i hi => ?_
    obtain ⟨j, hj, rfl⟩ := List.mem_map.mp hi
    have hj : j < 64 - k := List.mem_range.mp hj
    rw [getLsbD_and_lowMask v (by omega), decide_eq_false (by omega), Bool.and_false]
    exact Bool.false_ne_true
  rw [popcount, hsplit, List.countP_append, hlow, hhigh, Nat.add_zero, List.countP_eq_length_filter]

variable {n}

theorem countBits_of_le (reading : Reading) (h : 64 ≤ n.toNat) : countBits reading v n = 0 := if_pos h

/-- The prose reading keeps the positions below the `n` highest (40_group0_bitwise.md R88). -/
theorem countBits_prose (h : n.toNat < 64) :
    countBits .prose v n = BitVec.ofNat 64 ((List.range (64 - n.toNat)).filter fun i => v.getLsbD i).length := by
  rw [countBits, if_neg (Nat.not_le.mpr h), popcount_and_lowMask v (Nat.sub_le ..)]

/-- The pseudocode reading keeps the `n` lowest positions (40_group0_bitwise.md R88). -/
theorem countBits_pseudocode (h : n.toNat < 64) :
    countBits .pseudocode v n = BitVec.ofNat 64 ((List.range n.toNat).filter fun i => v.getLsbD i).length := by
  rw [countBits, if_neg (Nat.not_le.mpr h), popcount_and_lowMask v h.le]

end Results

/-! ### Instructions that finish

Each meaning of group zero is a `finish` of its result (40_group0_bitwise.md R80), so what is left to say of it is the result. -/

theorem finish_writesResult_of_eq {s : State} {rd : Reg} {v v' : Word} (h : v = v') :
    WritesResult s (s.writeReg rd v).advance rd v' := h ▸ finish_writesResult s rd v

/-- A `finish` completes and writes its result, however the result is spelled. -/
theorem finish_completes {s : State} {rd : Reg} {v v' : Word} (h : v = v') :
    ∃ t, finish s rd v = .next t ∧ WritesResult s t rd v' := ⟨_, finish_eq s rd v, finish_writesResult_of_eq h⟩

/-- Settles O25: the three bitwise operations are written as the statement writes them, the complement by `not_eq_ofNat`. -/
theorem logicRegisterResults : Obligations.LogicRegisterResults := by
  refine ⟨⟨?decodesAndr, fun rd r1 r2 s => ?andr⟩, ⟨?decodesXorr, fun rd r1 r2 s => ?xorr⟩,
    ⟨?decodesOrr, fun rd r1 r2 s => ?orr⟩, ⟨?decodesNot, fun rd r1 s => ?not⟩⟩
  case decodesAndr | decodesXorr | decodesOrr =>
    exact decodesR_of_readFrom (fun _ _ _ => rfl) fun _ => ⟨rfl, rfl, rfl⟩
  case decodesNot => exact decodesR_of_readFrom (fun _ _ _ => rfl) fun _ => ⟨rfl, rfl⟩
  case andr | xorr | orr => exact finish_completes rfl
  case not => exact finish_completes (not_eq_ofNat _)

/-- Settles O26: each result is written as the statement writes it. -/
theorem logicImmediateResults : Obligations.LogicImmediateResults := by
  refine ⟨⟨?decodesAndi, fun rd r1 imm s => ?andi⟩, ⟨?decodesXori, fun rd r1 imm s => ?xori⟩,
    ⟨?decodesOri, fun rd r1 imm s => ?ori⟩⟩
  case decodesAndi | decodesXori | decodesOri =>
    exact decodesS_of_readFrom (fun _ _ _ => rfl) fun _ => ⟨rfl, rfl, rfl⟩
  case andi | xori | ori => exact finish_completes rfl

/-- Settles O27: the result is `countBits`, in each case by its lemma. -/
theorem cntCountsBelowTheExcludedBits : Obligations.CntCountsBelowTheExcludedBits := by
  refine ⟨decodesS_of_readFrom (fun _ _ _ => rfl) fun _ => ⟨rfl, rfl, rfl⟩, fun rd r1 imm s => ?_⟩
  refine ⟨_, finish_eq s rd (countBits s.cfg.cntReading (s.readReg r1) (s.immS imm)),
    fun hn => finish_writesResult_of_eq ?cleared, fun hn hr => finish_writesResult_of_eq ?prose,
    fun hn hr => finish_writesResult_of_eq ?pseudocode⟩
  case cleared => exact countBits_of_le _ _ hn
  case prose => rw [hr, countBits_prose _ hn]
  case pseudocode => rw [hr, countBits_pseudocode _ hn]

/-- Settles O28: both amounts go through `shiftLeft_eq`. -/
theorem logicalLeftShiftResults : Obligations.LogicalLeftShiftResults := by
  refine ⟨⟨?decodesR, fun rd r1 r2 s => ?llsr⟩, ⟨?decodesS, fun rd r1 imm s => ?llsi⟩⟩
  case decodesR => exact decodesR_of_readFrom (fun _ _ _ => rfl) fun _ => ⟨rfl, rfl, rfl⟩
  case decodesS => exact decodesS_of_readFrom (fun _ _ _ => rfl) fun _ => ⟨rfl, rfl, rfl⟩
  case llsr | llsi => exact finish_completes (shiftLeft_eq _ _)

/-- Settles O29: both amounts go through `shiftRight_eq`. -/
theorem logicalRightShiftResults : Obligations.LogicalRightShiftResults := by
  refine ⟨⟨?decodesR, fun rd r1 r2 s => ?lrsr⟩, ⟨?decodesS, fun rd r1 imm s => ?lrsi⟩⟩
  case decodesR => exact decodesR_of_readFrom (fun _ _ _ => rfl) fun _ => ⟨rfl, rfl, rfl⟩
  case decodesS => exact decodesS_of_readFrom (fun _ _ _ => rfl) fun _ => ⟨rfl, rfl, rfl⟩
  case lrsr | lrsi => exact finish_completes (shiftRight_eq _ _)

/-- Settles O30: the arithmetical left shift has the result of the logical one. -/
theorem arithmeticalLeftShiftResults : Obligations.ArithmeticalLeftShiftResults := by
  refine ⟨⟨?decodesR, fun rd r1 r2 s => ?alsr⟩, ⟨?decodesS, fun rd r1 imm s => ?alsi⟩⟩
  case decodesR => exact decodesR_of_readFrom (fun _ _ _ => rfl) fun _ => ⟨rfl, rfl, rfl⟩
  case decodesS => exact decodesS_of_readFrom (fun _ _ _ => rfl) fun _ => ⟨rfl, rfl, rfl⟩
  case alsr | alsi => exact finish_completes (shiftLeftArith_eq _ _)

/-- Settles O31: both amounts go through `shiftRightArith_eq`. -/
theorem arithmeticalRightShiftResults : Obligations.ArithmeticalRightShiftResults := by
  refine ⟨⟨?decodesR, fun rd r1 r2 s => ?arsr⟩, ⟨?decodesS, fun rd r1 imm s => ?arsi⟩⟩
  case decodesR => exact decodesR_of_readFrom (fun _ _ _ => rfl) fun _ => ⟨rfl, rfl, rfl⟩
  case decodesS => exact decodesS_of_readFrom (fun _ _ _ => rfl) fun _ => ⟨rfl, rfl, rfl⟩
  case arsr | arsi => exact finish_completes (shiftRightArith_eq _ _)

end Machine

end Sys2Proof
end

section
/-! PROOFS. The arithmetic family (41_group1_arithmetic.md): sums, differences and products as numbers, the two divisions by what
characterises their quotients, and what each of the twelve instructions does and leaves alone. -/

namespace Sys2Proof

namespace Machine

/-! ### Sums, differences and products as numbers -/

section Results

theorem ofNat_mod_two_pow (n k : Nat) : BitVec.ofNat n (k % 2 ^ n) = BitVec.ofNat n k :=
  BitVec.eq_of_toNat_eq (by rw [BitVec.toNat_ofNat, BitVec.toNat_ofNat, Nat.mod_mod])

theorem ofInt_emod_two_pow (n : Nat) (k : Int) : BitVec.ofInt n (k % 2 ^ n) = BitVec.ofInt n k := by
  have hmod : (k % 2 ^ n).bmod (2 ^ n) = k.bmod (2 ^ n) := mod_cast Int.emod_bmod (n := 2 ^ n) (x := k)
  exact BitVec.eq_of_toInt_eq (by rw [BitVec.toInt_ofInt, BitVec.toInt_ofInt, hmod])

variable (a b : Word)

/-- The machine's sum is the exact sum modulo 2^64 (41_group1_arithmetic.md R101, R102). -/
theorem add_eq_ofNat : a + b = BitVec.ofNat 64 ((a.toNat + b.toNat) % 2 ^ 64) := by
  rw [ofNat_mod_two_pow, BitVec.add_def]

/-- The machine's difference is the exact difference modulo 2^64 (41_group1_arithmetic.md R103, R104). -/
theorem sub_eq_ofInt : a - b = BitVec.ofInt 64 ((a.toNat : Int) - b.toNat) := by
  rw [sub_eq_add_neg (a.toNat : Int), BitVec.ofInt_add, BitVec.ofInt_neg, BitVec.ofInt_natCast, BitVec.ofInt_natCast,
    BitVec.ofNat_toNat, BitVec.ofNat_toNat, BitVec.setWidth_eq, BitVec.setWidth_eq, ← BitVec.sub_eq_add_neg]

theorem mulUnsigned_eq_mul : mulUnsigned a b = a * b := by
  rw [mulUnsigned, BitVec.ofNat_mul, BitVec.ofNat_toNat, BitVec.ofNat_toNat, BitVec.setWidth_eq, BitVec.setWidth_eq]

theorem mulSigned_eq_mul : mulSigned a b = a * b := by
  rw [mulSigned, BitVec.ofInt_mul, BitVec.ofInt_toInt, BitVec.ofInt_toInt]

/-- The low 64 bits of a product do not depend on the signs its operands are read with (41_group1_arithmetic.md R109). -/
theorem mulUnsigned_eq_mulSigned : mulUnsigned a b = mulSigned a b :=
  (mulUnsigned_eq_mul a b).trans (mulSigned_eq_mul a b).symm

theorem mulUnsigned_eq_ofNat : mulUnsigned a b = BitVec.ofNat 64 (a.toNat * b.toNat % 2 ^ 64) :=
  (ofNat_mod_two_pow 64 _).symm

theorem mulSigned_eq_ofInt : mulSigned a b = BitVec.ofInt 64 (a.toInt * b.toInt % 2 ^ 64) :=
  (ofInt_emod_two_pow 64 _).symm

end Results

/-! ### Division -/

section Division

/-- The quotient of two words fits in a word (41_group1_arithmetic.md R111). -/
theorem divUnsigned_toNat (a b : Word) : (divUnsigned a b).toNat = a.toNat / b.toNat := by
  rw [divUnsigned, ← BitVec.udiv_def, BitVec.toNat_udiv]

theorem abs_tmod_lt_abs (a : Int) {b : Int} (hb : b ≠ 0) : |a.tmod b| < |b| := by
  rw [Int.abs_eq_natAbs, Int.abs_eq_natAbs, Int.natAbs_tmod, Int.ofNat_lt]
  exact Nat.mod_lt _ (Int.natAbs_pos.mpr hb)

/-- The remainder of a division toward zero never has the sign opposite to the dividend's. -/
theorem tmod_mul_self_nonneg (a b : Int) : 0 ≤ a.tmod b * a := by
  rcases le_total 0 a with ha | ha
  · exact mul_nonneg (Int.tmod_nonneg b ha) ha
  · have hneg : 0 ≤ (-a).tmod b := Int.tmod_nonneg b (neg_nonneg.mpr ha)
    rw [Int.neg_tmod] at hneg
    exact mul_nonneg_of_nonpos_of_nonpos (neg_nonneg.mp hneg) ha

variable (s : State) (rd : Reg) (a : Word) {b : Word}

/-- A zero divisor raises `DivisionByZero`, whatever the quotient and `rd` are (41_group1_arithmetic.md R110). -/
theorem divide_of_eq_zero (q : Word → Word → Word) (hb : b = 0) : divide q s rd a b = divisionTrap s := if_pos hb

theorem divide_of_ne_zero (q : Word → Word → Word) (hb : b ≠ 0) : divide q s rd a b = finish s rd (q a b) := if_neg hb

/-- Unsigned division by a divisor other than 0 writes the floor of the quotient (41_group1_arithmetic.md R111). -/
theorem divide_divUnsigned_completes (hb : b ≠ 0) :
    ∃ t, divide divUnsigned s rd a b = .next t ∧
      ∃ q : Word, q.toNat * b.toNat ≤ a.toNat ∧ a.toNat < (q.toNat + 1) * b.toNat ∧ WritesResult s t rd q := by
  have hpos : 0 < b.toNat := BitVec.toNat_pos_of_ne_zero hb
  refine ⟨_, divide_of_ne_zero s rd a _ hb, divUnsigned a b, ?lower, ?upper, finish_writesResult s rd _⟩
  case lower =>
    rw [divUnsigned_toNat]
    exact Nat.div_mul_le_self ..
  case upper =>
    rw [divUnsigned_toNat, Nat.succ_mul]
    exact Nat.lt_div_mul_add hpos

/-- Signed division by a divisor other than 0 writes the quotient rounded toward zero, modulo 2^64 (41_group1_arithmetic.md
R112, the spec's decision D23). -/
theorem divide_divSigned_completes (hb : b ≠ 0) :
    ∃ t, divide divSigned s rd a b = .next t ∧
      ∃ q m : Int, a.toInt = q * b.toInt + m ∧ |m| < |b.toInt| ∧ 0 ≤ m * a.toInt ∧
        WritesResult s t rd (BitVec.ofInt 64 q) := by
  have hne : b.toInt ≠ 0 := fun h => hb (BitVec.eq_of_toInt_eq (h.trans BitVec.toInt_zero.symm))
  exact ⟨_, divide_of_ne_zero s rd a _ hb, a.toInt.tdiv b.toInt, a.toInt.tmod b.toInt,
    (Int.tdiv_mul_add_tmod ..).symm, abs_tmod_lt_abs _ hne, tmod_mul_self_nonneg .., finish_writesResult s rd _⟩

end Division

/-! ### The statements of the family -/

/-- Settles O32: sums by `add_eq_ofNat`, differences by `sub_eq_ofInt`. -/
theorem addAndSubtractResults : Obligations.AddAndSubtractResults := by
  refine ⟨⟨?decodesAddr, fun rd r1 r2 s => ?addr⟩, ⟨?decodesAddi, fun rd r1 imm s => ?addi⟩,
    ⟨?decodesSubr, fun rd r1 r2 s => ?subr⟩, ⟨?decodesSubi, fun rd r1 imm s => ?subi⟩⟩
  case decodesAddr | decodesSubr => exact decodesR_of_readFrom (fun _ _ _ => rfl) fun _ => ⟨rfl, rfl, rfl⟩
  case decodesAddi | decodesSubi => exact decodesS_of_readFrom (fun _ _ _ => rfl) fun _ => ⟨rfl, rfl, rfl⟩
  case addr | addi => exact finish_completes (add_eq_ofNat _ _)
  case subr | subi => exact finish_completes (sub_eq_ofInt _ _)

/-- Settles O33: both forms go through `mulUnsigned_eq_ofNat`. -/
theorem unsignedMultiplyResults : Obligations.UnsignedMultiplyResults := by
  refine ⟨⟨?decodesR, fun rd r1 r2 s => ?umulr⟩, ⟨?decodesS, fun rd r1 imm s => ?umuli⟩⟩
  case decodesR => exact decodesR_of_readFrom (fun _ _ _ => rfl) fun _ => ⟨rfl, rfl, rfl⟩
  case decodesS => exact decodesS_of_readFrom (fun _ _ _ => rfl) fun _ => ⟨rfl, rfl, rfl⟩
  case umulr | umuli => exact finish_completes (mulUnsigned_eq_ofNat _ _)

/-- Settles O34: both forms go through `mulSigned_eq_ofInt`. -/
theorem signedMultiplyResults : Obligations.SignedMultiplyResults := by
  refine ⟨⟨?decodesR, fun rd r1 r2 s => ?smulr⟩, ⟨?decodesS, fun rd r1 imm s => ?smuli⟩⟩
  case decodesR => exact decodesR_of_readFrom (fun _ _ _ => rfl) fun _ => ⟨rfl, rfl, rfl⟩
  case decodesS => exact decodesS_of_readFrom (fun _ _ _ => rfl) fun _ => ⟨rfl, rfl, rfl⟩
  case smulr | smuli => exact finish_completes (mulSigned_eq_ofInt _ _)

/-- Settles O35: the two products are one word, so the two meanings finish alike. -/
theorem signedAndUnsignedMultiplyAgree : Obligations.SignedAndUnsignedMultiplyAgree := fun rd _ _ _ s =>
  ⟨congrArg (finish s rd) (mulUnsigned_eq_mulSigned _ _), congrArg (finish s rd) (mulUnsigned_eq_mulSigned _ _)⟩

/-- Settles O36: both forms are `divide divUnsigned`. -/
theorem unsignedDivideResults : Obligations.UnsignedDivideResults := by
  refine ⟨⟨?decodesR, fun rd r1 r2 s => ⟨?trapR, ?quotientR⟩⟩, ⟨?decodesS, fun rd r1 imm s => ⟨?trapS, ?quotientS⟩⟩⟩
  case decodesR => exact decodesR_of_readFrom (fun _ _ _ => rfl) fun _ => ⟨rfl, rfl, rfl⟩
  case decodesS => exact decodesS_of_readFrom (fun _ _ _ => rfl) fun _ => ⟨rfl, rfl, rfl⟩
  case trapR | trapS => exact divide_of_eq_zero s rd _ divUnsigned
  case quotientR | quotientS => exact divide_divUnsigned_completes s rd _

/-- Settles O37: both forms are `divide divSigned`. -/
theorem signedDivideResults : Obligations.SignedDivideResults := by
  refine ⟨⟨?decodesR, fun rd r1 r2 s => ⟨?trapR, ?quotientR⟩⟩, ⟨?decodesS, fun rd r1 imm s => ⟨?trapS, ?quotientS⟩⟩⟩
  case decodesR => exact decodesR_of_readFrom (fun _ _ _ => rfl) fun _ => ⟨rfl, rfl, rfl⟩
  case decodesS => exact decodesS_of_readFrom (fun _ _ _ => rfl) fun _ => ⟨rfl, rfl, rfl⟩
  case trapR | trapS => exact divide_of_eq_zero s rd _ divSigned
  case quotientR | quotientS => exact divide_divSigned_completes s rd _

end Machine

end Sys2Proof
end

section
/-! PROOFS. The call and stack family (42_group1_call_stack.md): reads of the cells just written, what `call`, `push`, `retn` and
`pull` do and leave alone, and that `retn` undoes `call` and `pull` undoes `push`. -/

namespace Sys2Proof

namespace Machine

/-! ### Registers and cells after a write -/

section Accesses

variable {s t : State} {a v : Word} {w : Width}

/-- A register just written holds the value, unless it is `r00` (10_state.md R21). -/
theorem State.readReg_writeReg_self (s : State) (r : Reg) (v : Word) :
    (s.writeReg r v).readReg r = if r = 0 then 0 else v := by
  rw [State.readReg_writeReg]
  by_cases hr : r = 0 <;> simp [hr]

/-- A write of a register is not seen by reads of memory, nor by their traps. -/
@[simp] theorem memRead_writeReg (s : State) (r : Reg) (v a : Word) (w : Width) :
    memRead (s.writeReg r v) a w = memRead s a w := by
  simp only [memRead, checkAccess, raise_eq, State.cell, State.writeReg_paging, State.writeReg_cfg, State.writeReg_pc,
    State.writeReg_mem]

/-- A read that completes depends on the parameters, the paging state and the bytes of its cell alone. -/
theorem memRead_eq_next_of_same (hcfg : t.cfg = s.cfg) (hpaging : t.paging = s.paging)
    (hbytes : ∀ i < w.bytes, t.readByte (a.toNat + i) = s.readByte (a.toNat + i)) (h : memRead s a w = .next v) :
    memRead t a w = .next v := by
  obtain ⟨hA, rfl⟩ := memRead_eq_next h
  have hA' : Accessible t a w := by simpa only [Accessible, Permitted, InRange, hcfg, hpaging] using hA
  rw [memRead_of_accessible hA', State.cell_congr a w (by rw [hcfg]) hbytes]

/-- A double word just written is read back. -/
theorem memRead_setCell_double (v : Word) (hA : Accessible s a .double) :
    memRead (s.setCell a .double v) a .double = .next v := by
  rw [memRead_of_accessible (s := s.setCell a .double v) hA, State.cell_setCell_double]

/-- A write of the double word after a cell leaves the cell alone, also where the address wraps. -/
theorem memRead_setCell_next_double (v' : Word) (h : memRead s a .double = .next v) :
    memRead (s.setCell (a + 8) .double v') a .double = .next v := by
  refine memRead_eq_next_of_same (s := s) rfl rfl (fun i hi => s.readByte_setCell_outside _ _ _ _ ?outside) h
  case outside =>
    simp only [Width.bytes] at hi ⊢
    bv_omega

/-- The model's cell as the word the statements write. -/
theorem State.cell_eq_ofNat (s : State) (a : Word) (w : Width) :
    s.cell a w = BitVec.ofNat 64 (cellValue s a.toNat w.bytes) := by
  rw [← State.cell_toNat, BitVec.ofNat_toNat, BitVec.setWidth_eq]

end Accesses

/-! ### `call` -/

section Call

variable {s t : State} {r1 : Reg} (rd r2 : Reg)

/-- A `call` whose two cells are accessible completes: frame, registers, target, and everything it leaves alone (R122). -/
theorem execCall_of_accessible (hA : Accessible s (s.readReg r1) .double)
    (hB : Accessible s (s.readReg r1 + 8) .double) :
    ∃ t, execCall rd r1 r2 s = .next t ∧
      (∀ r, t.readReg r =
        if r = r2 ∧ r ≠ 0 then (if r1 = 0 then 0 else s.readReg r1 + 16)
        else if r = r1 ∧ r ≠ 0 then s.readReg r1 + 16 else s.readReg r) ∧
      t.pc = t.readReg rd ∧
      memRead t (s.readReg r1) .double = .next (s.readReg r2) ∧
      memRead t (s.readReg r1 + 8) .double = .next (s.pc + 8) ∧
      (∀ b, b < (s.readReg r1).toNat ∨ (s.readReg r1).toNat + 8 ≤ b →
        b < (s.readReg r1 + 8).toNat ∨ (s.readReg r1 + 8).toNat + 8 ≤ b → t.readByte b = s.readByte b) ∧
      SameSystem s t := by
  have hfirst := memWrite_of_accessible (v := s.readReg r2) hA
  have hsecond := memWrite_of_accessible (s := s.setCell (s.readReg r1) .double (s.readReg r2)) (v := s.nextPc) hB
  refine ⟨_, by rw [execCall, hfirst, andThen_next, hsecond, andThen_next], fun r => ?registers, rfl, ?frame, ?link,
    fun b hfst hsnd => ?outside, ?system⟩
  case registers =>
    rw [State.setPc_readReg, State.readReg_writeReg, State.readReg_writeReg_self, State.readReg_writeReg]
    rfl
  case frame =>
    exact memRead_eq_next_of_same (by simp) (by simp) (fun _ _ => by simp)
      (memRead_setCell_next_double s.nextPc (memRead_setCell_double (s.readReg r2) hA))
  case link =>
    exact memRead_eq_next_of_same (by simp) (by simp) (fun _ _ => by simp)
      (memRead_setCell_double (s := s.setCell (s.readReg r1) .double (s.readReg r2)) s.nextPc hB)
  case outside =>
    rw [State.setPc_readByte, State.writeReg_readByte, State.writeReg_readByte,
      State.readByte_setCell_outside _ _ _ _ _ hsnd, State.readByte_setCell_outside _ _ _ _ _ hfst]
  case system => simp [SameSystem]

/-- A `call` that completes had both its cells accessible. -/
theorem accessible_of_execCall {rd r2 : Reg} (h : execCall rd r1 r2 s = .next t) :
    Accessible s (s.readReg r1) .double ∧ Accessible s (s.readReg r1 + 8) .double := by
  obtain ⟨u, hfirst, h⟩ := andThen_eq_next h
  obtain ⟨hA, rfl⟩ := memWrite_eq_next hfirst
  obtain ⟨u', hsecond, _⟩ := andThen_eq_next h
  obtain ⟨hB, _⟩ := memWrite_eq_next hsecond
  exact ⟨hA, hB⟩

end Call

/-- Settles O38: completion is `execCall_of_accessible`; a first write leaves the parameters and the pc that the trap of the second
one names. -/
theorem callPushesFrameAndReturnAddress : Obligations.CallPushesFrameAndReturnAddress := by
  refine ⟨decodesR_of_readFrom (fun _ _ _ => rfl) fun _ => ⟨rfl, rfl, rfl⟩, fun rd r1 r2 s => ?_⟩
  refine ⟨fun hA hB => execCall_of_accessible rd r2 hA hB, fun hp hr => ?trapFirst, fun hA hp hr => ?trapSecond⟩
  case trapFirst =>
    rw [exec, execCall, memWrite_of_outOfRange hp hr, andThen_fault, rangeTrap]
  case trapSecond =>
    rw [exec, execCall, memWrite_of_accessible hA, andThen_next,
      memWrite_of_outOfRange (s := s.setCell (s.readReg r1) .double (s.readReg r2)) hp hr]
    rfl

/-! ### `push` -/

section Push

variable {s t : State} {rd : Reg} (r1 : Reg) (imm : ImmS)

/-- A `push` whose cell is accessible completes: the cell, the stack pointer, and everything it leaves alone (R123). -/
theorem execPush_of_accessible (hA : Accessible s (s.readReg rd) .double) :
    ∃ t, execPush rd r1 imm s = .next t ∧
      memRead t (s.readReg rd) .double = .next (s.readReg r1 + s.immS imm) ∧
      OnlyRegister s t rd (s.readReg rd + 8) ∧ t.pc = s.pc + 8 ∧ SameMemoryOutside s t (s.readReg rd).toNat 8 ∧
      SameSystem s t := by
  have hwrite := memWrite_of_accessible (v := s.readReg r1 + s.immS imm) hA
  refine ⟨_, by rw [execPush, hwrite, andThen_next], ?cell, fun r => ?registers, by simp, fun b hb => ?outside, ?system⟩
  case cell =>
    exact memRead_eq_next_of_same (by simp) (by simp) (fun _ _ => by simp)
      (memRead_setCell_double (s.readReg r1 + s.immS imm) hA)
  case registers =>
    rw [State.advance_readReg, State.readReg_writeReg]
    rfl
  case outside =>
    rw [State.advance_readByte, State.writeReg_readByte, s.sameMemoryOutside_setCell _ _ _ b hb]
  case system => simp [SameSystem]

/-- A `push` that completes had its cell accessible. -/
theorem accessible_of_execPush {r1 : Reg} {imm : ImmS} (h : execPush rd r1 imm s = .next t) :
    Accessible s (s.readReg rd) .double := by
  obtain ⟨_, hwrite, _⟩ := andThen_eq_next h
  obtain ⟨hA, _⟩ := memWrite_eq_next hwrite
  exact hA

end Push

/-- Settles O39: completion is `execPush_of_accessible`, and the only access raises where it is out of range. -/
theorem pushStoresAndRaisesTheStackPointer : Obligations.PushStoresAndRaisesTheStackPointer := by
  refine ⟨decodesS_of_readFrom (fun _ _ _ => rfl) fun _ => ⟨rfl, rfl, rfl⟩, fun rd r1 imm s => ?_⟩
  refine ⟨fun hA => execPush_of_accessible r1 imm hA, fun hp hr => ?trap⟩
  case trap => rw [exec, execPush, memWrite_of_outOfRange hp hr, andThen_fault, rangeTrap]

/-! ### `retn` -/

section Retn

/-- The stack pointer a `retn` leaves, where the frame pointer is not the same register (R124, the spec's decision D7). -/
def State.retnPointer (s : State) (r1 : Reg) : Word := if r1 = 0 then 0 else s.readReg r1 - 16

/-- The stack pointer as a `retn` reads it again, after loading `v` into the frame pointer (R124, the spec's decision D7). -/
def State.retnBase (s : State) (r1 r2 : Reg) (v : Word) : Word := if r2 = r1 ∧ r1 ≠ 0 then v else s.retnPointer r1

variable {s : State} {r1 r2 : Reg} {v p : Word}

/-- The lines of `retn` with every address as a function of the registers before it. -/
theorem execRetn_eq (r1 r2 : Reg) (s : State) :
    execRetn r1 r2 s = andThen (memRead s (s.retnPointer r1) .double) fun v =>
      andThen (memRead s (s.retnBase r1 r2 v + 8) .double) fun p =>
        .next (((s.writeReg r1 (s.readReg r1 - 16)).writeReg r2 v).setPc p) := by
  have hpointer : (s.writeReg r1 (s.readReg r1 - 16)).readReg r1 = s.retnPointer r1 := State.readReg_writeReg_self ..
  have hbase (v : Word) : ((s.writeReg r1 (s.readReg r1 - 16)).writeReg r2 v).readReg r1 = s.retnBase r1 r2 v := by
    rw [State.readReg_writeReg, hpointer, State.retnBase]
    exact if_congr (and_congr_left' eq_comm) rfl rfl
  simp only [execRetn, hpointer, hbase, memRead_writeReg]

/-- A `retn` whose two reads complete does: both pointers, the return, and everything it leaves alone (R124). -/
theorem execRetn_of_memRead (hv : memRead s (s.retnPointer r1) .double = .next v)
    (hp : memRead s (s.retnBase r1 r2 v + 8) .double = .next p) :
    ∃ t, execRetn r1 r2 s = .next t ∧
      (∀ r, t.readReg r = if r = r2 ∧ r ≠ 0 then v else if r = r1 ∧ r ≠ 0 then s.retnPointer r1 else s.readReg r) ∧
      t.pc = p ∧ SameMemory s t ∧ SameSystem s t := by
  refine ⟨_, by rw [execRetn_eq, hv, andThen_next, hp, andThen_next], fun r => ?registers, rfl, fun _ => by simp,
    by simp [SameSystem]⟩
  case registers =>
    rw [State.setPc_readReg, State.readReg_writeReg, State.readReg_writeReg]
    by_cases hr : r = r1 ∧ r ≠ 0
    · obtain ⟨rfl, hr0⟩ := hr
      simp [State.retnPointer, hr0]
    · rw [if_neg hr, if_neg hr]

end Retn

/-- Settles O40: completion is `execRetn_of_memRead`, and by `execRetn_eq` the read out of range raises with the state unchanged. -/
theorem retnRestoresFrameAndJumpsBack : Obligations.RetnRestoresFrameAndJumpsBack := by
  refine ⟨decodesR_of_readFrom (fun _ _ _ => rfl) fun _ => ⟨rfl, rfl⟩, fun r1 r2 s => ?_⟩
  intro sp v q
  have hpointer : s.retnPointer r1 = sp := rfl
  have hbase : s.retnBase r1 r2 v = q := rfl
  have hread (hA : Accessible s sp .double) : memRead s sp .double = .next v := by
    rw [memRead_of_accessible hA, State.cell_eq_ofNat, Width.bytes]
  refine ⟨fun hA hB => execRetn_of_memRead (hread hA) ?target, fun hp hr => ?trapFirst, fun hA hp hr => ?trapSecond⟩
  case target => rw [hbase, memRead_of_accessible hB, State.cell_eq_ofNat, Width.bytes]
  case trapFirst => rw [exec, execRetn_eq, hpointer, memRead_of_outOfRange hp hr, andThen_fault, rangeTrap]
  case trapSecond =>
    rw [exec, execRetn_eq, hpointer, hread hA, andThen_next, hbase, memRead_of_outOfRange hp hr, andThen_fault, rangeTrap]

/-! ### `pull` -/

section Pull

variable {s : State} {r1 : Reg} {v : Word} (rd : Reg)

/-- A `pull` whose read completes does: the loaded register, the stack pointer, and everything it leaves alone (R125, the
spec's decision D7). -/
theorem execPull_of_memRead (hv : memRead s (s.readReg r1 - 8) .double = .next v) :
    ∃ t, execPull rd r1 s = .next t ∧
      (∀ r, t.readReg r =
        if r = r1 ∧ r ≠ 0 then (if rd = r1 then v - 8 else s.readReg r1 - 8)
        else if r = rd ∧ r ≠ 0 then v else s.readReg r) ∧
      t.pc = s.pc + 8 ∧ SameMemory s t ∧ SameSystem s t := by
  refine ⟨_, by rw [execPull, hv, andThen_next], fun r => ?registers, by simp, fun _ => by simp, by simp [SameSystem]⟩
  case registers =>
    rw [State.advance_readReg, State.readReg_writeReg, State.readReg_writeReg, State.readReg_writeReg]
    by_cases hr : r = r1 ∧ r ≠ 0
    · obtain ⟨rfl, hr0⟩ := hr
      by_cases hd : rd = r <;> simp [hr0, hd, eq_comm (a := r)]
    · rw [if_neg hr, if_neg hr]

end Pull

/-- Settles O41: completion is `execPull_of_memRead`, and the only access raises where it is out of range. -/
theorem pullLoadsAndLowersTheStackPointer : Obligations.PullLoadsAndLowersTheStackPointer := by
  refine ⟨decodesS_of_readFrom (fun _ _ _ => rfl) fun _ => ⟨rfl, rfl⟩, fun rd r1 s => ?_⟩
  refine ⟨fun hA => execPull_of_memRead rd ?loaded, fun hp hr => ?trap⟩
  case loaded => rw [memRead_of_accessible hA, State.cell_eq_ofNat, Width.bytes]
  case trap => rw [exec, execPull, memRead_of_outOfRange hp hr, andThen_fault, rangeTrap]

/-! ### What undoes what -/

/-- Settles O42: the later state's stack pointer lowered by 16 is the caller's, and there the two reads give the caller's frame
pointer and the return address (R126). -/
theorem callThenRetnRestoresTheCaller : Obligations.CallThenRetnRestoresTheCaller := by
  intro rd r1 r2 s t u h0 hne hcall hcfg hpaging hsp hbytes
  obtain ⟨hA, hB⟩ := accessible_of_execCall hcall
  obtain ⟨t', ht', hregs, _, hframe, hlink, _⟩ := execCall_of_accessible rd r2 hA hB
  obtain rfl : t = t' := Host.Outcome.next.inj (hcall.symm.trans ht')
  have hpointer : u.retnPointer r1 = s.readReg r1 := by
    rw [State.retnPointer, if_neg h0, hsp, hregs, if_neg fun h => hne h.1, if_pos ⟨rfl, h0⟩, BitVec.add_sub_cancel]
  have hbase : u.retnBase r1 r2 (s.readReg r2) = s.readReg r1 := by
    rw [State.retnBase, if_neg fun h => hne h.1.symm, hpointer]
  have hframe' : memRead u (u.retnPointer r1) .double = .next (s.readReg r2) := by
    rw [hpointer]
    exact memRead_eq_next_of_same hcfg hpaging (fun i hi => (hbytes i hi).1) hframe
  have hlink' : memRead u (u.retnBase r1 r2 (s.readReg r2) + 8) .double = .next (s.pc + 8) := by
    rw [hbase]
    exact memRead_eq_next_of_same hcfg hpaging (fun i hi => (hbytes i hi).2) hlink
  obtain ⟨v, hretn, hregs', hpc, _⟩ := execRetn_of_memRead hframe' hlink'
  refine ⟨v, hretn, ?stackPointer, ?framePointer, hpc⟩
  case stackPointer => rw [hregs', if_neg fun h => hne h.1, if_pos ⟨rfl, h0⟩, hpointer]
  case framePointer =>
    by_cases h2 : r2 = 0
    · rw [h2, State.readReg_zero, State.readReg_zero]
    · rw [hregs', if_pos ⟨rfl, h2⟩]

/-- Settles O43: `pull` reads 8 below the raised stack pointer, where `push` stored (R125). -/
theorem pushThenPullRestores : Obligations.PushThenPullRestores := by
  intro rd r1 x imm s t h0 hne hpush
  obtain ⟨t', ht', hcell, hregs, _⟩ := execPush_of_accessible r1 imm (accessible_of_execPush hpush)
  obtain rfl : t = t' := Host.Outcome.next.inj (hpush.symm.trans ht')
  have hpointer : t.readReg rd - 8 = s.readReg rd := by
    rw [hregs, if_pos ⟨rfl, h0⟩, BitVec.add_sub_cancel]
  rw [← hpointer] at hcell
  obtain ⟨u, hpull, hregs', _⟩ := execPull_of_memRead x hcell
  refine ⟨u, hpull, ?stackPointer, fun hx => ?pulled⟩
  case stackPointer => rw [hregs', if_pos ⟨rfl, h0⟩, if_neg hne, hpointer]
  case pulled => rw [hregs', if_neg fun h => hne h.1, if_pos ⟨rfl, hx⟩]

end Machine

end Sys2Proof
end

section
/-! PROOFS. The loads and stores (43_group2_load_store.md): what `load` and `store` do and leave alone at every width, and that each of
the eight instructions is one of the two at its own width. -/

namespace Sys2Proof

namespace Machine

section LoadStore

variable (w : Width) (rd r1 : Reg) (imm : ImmS) (s : State)

/-- Going on to the next instruction leaves the value of every cell alone. -/
theorem cellValue_advance (a n : Nat) : cellValue s.advance a n = cellValue s a n := rfl

/-- A load whose cell is accessible writes the zero-extended cell to `rd` and does nothing else (R130). -/
theorem load_completes (hA : Accessible s (s.effAddr r1 imm) w) :
    ∃ t, load w rd r1 imm s = .next t ∧
      WritesResult s t rd (BitVec.ofNat 64 (cellValue s (s.effAddr r1 imm).toNat w.bytes)) := by
  rw [load, memRead_of_accessible hA, andThen_next]
  exact finish_completes (s.cell_eq_ofNat _ w)

/-- A load outside memory raises `MemoryRange`, whatever `rd` is (20_memory.md R47, the spec's decision D4). -/
theorem load_of_outOfRange (hp : Permitted s (s.effAddr r1 imm) w) (hr : ¬ InRange s (s.effAddr r1 imm) w) :
    load w rd r1 imm s = rangeTrap s (s.effAddr r1 imm) w := by
  rw [load, memRead_of_outOfRange hp hr, andThen_fault, rangeTrap]

/-- A store whose cell is accessible puts the low bytes of `r1` there and leaves everything else but the pc alone (R135). -/
theorem store_completes (hA : Accessible s (s.effAddr rd imm) w) :
    ∃ t, store w rd r1 imm s = .next t ∧
      cellValue t (s.effAddr rd imm).toNat w.bytes = (s.readReg r1).toNat % 2 ^ (8 * w.bytes) ∧
      SameMemoryOutside s t (s.effAddr rd imm).toNat w.bytes ∧ SameRegisters s t ∧ t.pc = s.pc + 8 ∧ SameSystem s t := by
  refine ⟨_, store_of_accessible r1 hA, ?stored, fun b hb => ?outside, fun r => ?registers, by simp, ?system⟩
  case stored => rw [cellValue_advance, ← State.cell_toNat, State.cell_setCell_toNat]
  case outside => rw [State.advance_readByte, s.sameMemoryOutside_setCell _ w _ b hb]
  case registers => rw [State.advance_readReg, s.sameRegisters_setCell]
  case system => simp [SameSystem]

/-- A store outside memory raises `MemoryRange` and writes nothing (20_memory.md R47, the spec's decision D4). -/
theorem store_of_outOfRange (hp : Permitted s (s.effAddr rd imm) w) (hr : ¬ InRange s (s.effAddr rd imm) w) :
    store w rd r1 imm s = rangeTrap s (s.effAddr rd imm) w := by
  rw [store, memWrite_of_outOfRange hp hr, andThen_fault, rangeTrap]

end LoadStore

/-- Settles O44: each load is `load` at its own width. -/
theorem loadResults : Obligations.LoadResults := by
  refine ⟨⟨?decodesLdb, fun rd r1 imm s => ?ldb⟩, ⟨?decodesLdh, fun rd r1 imm s => ?ldh⟩,
    ⟨?decodesLdw, fun rd r1 imm s => ?ldw⟩, ⟨?decodesLdd, fun rd r1 imm s => ?ldd⟩⟩
  case decodesLdb | decodesLdh | decodesLdw | decodesLdd =>
    exact decodesS_of_readFrom (fun _ _ _ => rfl) fun _ => ⟨rfl, rfl, rfl⟩
  case ldb => exact ⟨load_completes .byte rd r1 imm s, load_of_outOfRange .byte rd r1 imm s⟩
  case ldh => exact ⟨load_completes .half rd r1 imm s, load_of_outOfRange .half rd r1 imm s⟩
  case ldw => exact ⟨load_completes .word rd r1 imm s, load_of_outOfRange .word rd r1 imm s⟩
  case ldd => exact ⟨load_completes .double rd r1 imm s, load_of_outOfRange .double rd r1 imm s⟩

/-- Settles O45: each store is `store` at its own width; `std` stores field `r1` as the others do (90_conflicts.md C8). -/
theorem storeResults : Obligations.StoreResults := by
  refine ⟨⟨?decodesStb, fun rd r1 imm s => ?stb⟩, ⟨?decodesSth, fun rd r1 imm s => ?sth⟩,
    ⟨?decodesStw, fun rd r1 imm s => ?stw⟩, ⟨?decodesStd, fun rd r1 imm s => ?std⟩⟩
  case decodesStb | decodesSth | decodesStw | decodesStd =>
    exact decodesS_of_readFrom (fun _ _ _ => rfl) fun _ => ⟨rfl, rfl, rfl⟩
  case stb => exact ⟨store_completes .byte rd r1 imm s, store_of_outOfRange .byte rd r1 imm s⟩
  case sth => exact ⟨store_completes .half rd r1 imm s, store_of_outOfRange .half rd r1 imm s⟩
  case stw => exact ⟨store_completes .word rd r1 imm s, store_of_outOfRange .word rd r1 imm s⟩
  case std => exact ⟨store_completes .double rd r1 imm s, store_of_outOfRange .double rd r1 imm s⟩

end Machine

end Sys2Proof
end

section
/-! PROOFS. The jumps (44_group2_jumps.md): jumps that link, the two places a conditional jump can go to, and when it is taken in each
reading. -/

namespace Sys2Proof

namespace Machine

/-- The operands in the L type fields are what the statements' `regAt` and quotient read (30_encoding.md R63). -/
theorem decodesL_of_readFrom {op : Nat} {mk : Reg → ImmL → Instr} (hop : ∀ r1 imm, op = (mk r1 imm).opcode.toNat)
    (hread : ∀ w, (mk (fieldR1 w) (fieldImmL w)).ReadFrom w) : DecodesL op mk := by
  intro w hw
  have himm : fieldImmL w = BitVec.ofNat 51 (w.toNat / 2 ^ 13) := by
    rw [← fieldImmL_toNat, BitVec.ofNat_toNat, BitVec.setWidth_eq]
  rw [← regField_eq_regAt, ← himm]
  exact decodeWord_of_readFrom (opcodeField_eq_of_mod (hw.trans (hop _ _))) (hread w)

/-! ### Jumps that link -/

/-- Writing a link and jumping completes, and does nothing else, however the target is spelled (R146, R147). -/
theorem link_completes {s : State} {rd : Reg} {link target target' : Word} (h : target = target') :
    ∃ t, (.next ((s.writeReg rd link).setPc target) : Result State) = .next t ∧
      OnlyRegister s t rd link ∧ t.pc = target' ∧ SameMemory s t ∧ SameSystem s t :=
  ⟨_, rfl, fun q => by rw [State.setPc_readReg, State.readReg_writeReg], h, fun a => by simp, by simp [SameSystem]⟩

/-- Settles O46: the target of `jal` is written as the statement writes it. -/
theorem jalLinksAndJumps : Obligations.JalLinksAndJumps :=
  ⟨decodesL_of_readFrom (fun _ _ => rfl) fun _ => ⟨rfl, rfl⟩, fun _ _ _ => link_completes rfl⟩

/-- Settles O47: `x[r1]` is read from the state that already holds the link (42_group1_call_stack.md R120). -/
theorem jalrLinksAndJumps : Obligations.JalrLinksAndJumps := by
  refine ⟨decodesS_of_readFrom (fun _ _ _ => rfl) fun _ => ⟨rfl, rfl, rfl⟩,
    fun rd r1 imm s => link_completes ?target⟩
  case target => rw [State.readReg_writeReg, State.nextPc]

/-! ### When a conditional jump is taken -/

section Taken

variable (a b : Word)

theorem takenJe_prose_iff : takenJe .prose a b = true ↔ a = b := beq_iff_eq

theorem takenJe_pseudocode_iff : takenJe .pseudocode a b = true ↔ ¬ a = b := bne_iff_ne

theorem takenJne_iff : takenJne a b = true ↔ ¬ a = b := bne_iff_ne

theorem takenJgu_prose_iff : takenJgu .prose a b = true ↔ b.toNat < a.toNat := decide_eq_true_iff

/-- Bit 63 of the difference as a bound on it (R150). -/
theorem takenJgu_pseudocode_iff : takenJgu .pseudocode a b = true ↔ (a - b).toNat < 2 ^ 63 := by
  rw [takenJgu, Bool.not_eq_true', BitVec.msb_eq_false_iff_two_mul_lt]
  omega

end Taken

/-! ### Where a conditional jump goes -/

section Branch

variable {s : State} {imm : ImmS} {taken : Bool} {c : Prop} [Decidable c]

theorem State.setPc_jumpsTo (s : State) {target target' : Word} (h : target = target') :
    JumpsTo s (s.setPc target) target' :=
  ⟨fun _ => s.setPc_readReg _ _, h, fun _ => s.setPc_readByte _ _, by simp [SameSystem]⟩

/-- A conditional jump goes to its target where its condition holds, else to the next instruction, and does nothing else (R145). -/
theorem branch_jumpsTo_of_iff (h : taken = true ↔ c) :
    JumpsTo s (s.setPc (if taken then s.branchTarget imm else s.nextPc))
      (if c then s.pc + s.immS imm * 8 else s.pc + 8) :=
  s.setPc_jumpsTo (if_congr h rfl rfl)

/-- The same for a jump taken where `c` fails. -/
theorem branch_jumpsTo_of_iff_not (h : taken = true ↔ ¬ c) :
    JumpsTo s (s.setPc (if taken then s.branchTarget imm else s.nextPc))
      (if c then s.pc + 8 else s.pc + s.immS imm * 8) :=
  s.setPc_jumpsTo ((if_congr h rfl rfl).trans (ite_not ..))

end Branch

section Jleu

variable {s : State} (rd r1 : Reg) (imm : ImmS)

/-- In the prose reading `jleu` is a branch on its comparison (R151, the spec's decision D22). -/
theorem execJleu_of_prose (hr : s.cfg.branchReading = .prose) :
    execJleu rd r1 imm s = branch (decide ((s.readReg rd).toNat ≤ (s.readReg r1).toNat)) imm s := by
  rw [execJleu, hr, takenJleu]

/-- The cut pseudocode of `jleu` has no meaning (R151; log 21). -/
theorem execJleu_of_pseudocode (hr : s.cfg.branchReading = .pseudocode) :
    execJleu rd r1 imm s = .refused .unrecoverableReading := by
  rw [execJleu, hr, takenJleu]

end Jleu

/-! ### The four conditional jumps -/

/-- Settles O48: `je` by its condition in each reading, `jne` by its one condition. -/
theorem equalityJumpResults : Obligations.EqualityJumpResults := by
  refine ⟨⟨?decodesJe, fun rd r1 imm s => ⟨_, rfl, fun hr => ?jeProse, fun hr => ?jePseudocode⟩⟩,
    ⟨?decodesJne, fun rd r1 imm s => ⟨_, rfl, ?jne⟩⟩⟩
  case decodesJe | decodesJne => exact decodesS_of_readFrom (fun _ _ _ => rfl) fun _ => ⟨rfl, rfl, rfl⟩
  case jeProse => exact branch_jumpsTo_of_iff (hr ▸ takenJe_prose_iff _ _)
  case jePseudocode => exact branch_jumpsTo_of_iff_not (hr ▸ takenJe_pseudocode_iff _ _)
  case jne => exact branch_jumpsTo_of_iff_not (takenJne_iff _ _)

/-- Settles O49: `jgu` by its condition in each reading; `jleu` is a branch in the prose reading and refused in the other. -/
theorem unsignedOrderJumpResults : Obligations.UnsignedOrderJumpResults := by
  refine ⟨⟨?decodesJgu, fun rd r1 imm s => ⟨_, rfl, fun hr => ?jguProse, fun hr => ?jguPseudocode⟩⟩,
    ⟨?decodesJleu, fun rd r1 imm s => ⟨fun hr => ?jleuProse, execJleu_of_pseudocode rd r1 imm⟩⟩⟩
  case decodesJgu | decodesJleu => exact decodesS_of_readFrom (fun _ _ _ => rfl) fun _ => ⟨rfl, rfl, rfl⟩
  case jguProse => exact branch_jumpsTo_of_iff (hr ▸ takenJgu_prose_iff _ _)
  case jguPseudocode => exact branch_jumpsTo_of_iff (hr ▸ takenJgu_pseudocode_iff _ _)
  case jleuProse => exact ⟨_, execJleu_of_prose rd r1 imm hr, branch_jumpsTo_of_iff decide_eq_true_iff⟩

/-- Settles O50: the two conditions of O49 are each other's negation. -/
theorem exactlyOneOfJguAndJleuIsTaken : Obligations.ExactlyOneOfJguAndJleuIsTaken := by
  intro rd r1 imm s hr _
  obtain ⟨⟨_, jgu⟩, _, jleu⟩ := unsignedOrderJumpResults
  obtain ⟨t, ht, hjgu, _⟩ := jgu rd r1 imm s
  obtain ⟨jleuProse, _⟩ := jleu rd r1 imm s
  obtain ⟨u, hu, _, hpcu, _⟩ := jleuProse hr
  obtain ⟨_, hpct, _⟩ := hjgu hr
  refine ⟨t, u, ht, hu, ?_⟩
  rcases Nat.lt_or_ge (s.readReg r1).toNat (s.readReg rd).toNat with hlt | hle
  · exact .inl ⟨hpct.trans (if_pos hlt), hpcu.trans (if_neg hlt.not_ge)⟩
  · exact .inr ⟨hpct.trans (if_neg hle.not_gt), hpcu.trans (if_pos hle)⟩

end Machine

end Sys2Proof
end

section
/-! PROOFS. The program calls (45_pcall.md): the answer of the processor interface for each pair r29:r28, what each of its functions
reports, sets and keeps, the words that are program calls, and accesses once paging is enabled. -/

namespace Sys2Proof

namespace Machine

/-! ### The answer for each pair r29:r28 -/

section Pairs

variable {s : State}

theorem processorInterface_vectorCheck (h29 : s.readReg 29 = 0) (h28 : s.readReg 28 = 0) :
    processorInterface s = .next (interruptVectorCheck s) := by
  simp [processorInterface, h29, h28]

theorem processorInterface_vectorEnable (h29 : s.readReg 29 = 0) (h28 : s.readReg 28 = 1) :
    processorInterface s = .next (interruptVectorEnable s) := by
  simp [processorInterface, h29, h28]

theorem processorInterface_pagingCheck (h29 : s.readReg 29 = 1) (h28 : s.readReg 28 = 0) :
    processorInterface s = .next (pagingCheck s) := by
  simp [processorInterface, h29, h28]

theorem processorInterface_pagingEnable (h29 : s.readReg 29 = 1) (h28 : s.readReg 28 = 1) :
    processorInterface s = .next (pagingEnable s) := by
  simp [processorInterface, h29, h28]

theorem processorInterface_informationCheck (h29 : s.readReg 29 = 2) (h28 : s.readReg 28 = 0) :
    processorInterface s = .next (informationCheck s) := by
  simp [processorInterface, h29, h28]

/-- From group 3 on every group is absent, the hyper functions among them (R170, R174, the spec's decision D19). -/
theorem processorInterface_absentGroup (h29 : 3 ≤ (s.readReg 29).toNat) (h28 : s.readReg 28 = 0) :
    processorInterface s = .next (absentGroupCheck s) := by
  have h0 : s.readReg 29 ≠ 0 := by bv_omega
  have h1 : s.readReg 29 ≠ 1 := by bv_omega
  have h2 : s.readReg 29 ≠ 2 := by bv_omega
  simp only [processorInterface, h28, h0, h1, h2, false_and, if_false, if_true]

/-- No group has a function above 1, and only the first two groups have a function 1 (R169, R170, R174). -/
theorem processorInterface_undefined
    (h : 2 ≤ (s.readReg 28).toNat ∨ (s.readReg 28 = 1 ∧ 2 ≤ (s.readReg 29).toNat)) :
    processorInterface s = .refused (.undefinedFunction (s.readReg 29) (s.readReg 28)) := by
  have hcheck : s.readReg 28 ≠ 0 := by bv_omega
  have henable : s.readReg 28 = 1 → s.readReg 29 ≠ 0 ∧ s.readReg 29 ≠ 1 := by bv_omega
  rcases processorInterface_cases s with ⟨_, h28, _⟩ | ⟨h29, h28, _⟩ | ⟨_, h28, _⟩ | ⟨h29, h28, _⟩ | ⟨_, h28, _⟩ |
    ⟨h28, _⟩ | hrefused
  · exact absurd h28 hcheck
  · exact absurd h29 (henable h28).1
  · exact absurd h28 hcheck
  · exact absurd h29 (henable h28).2
  · exact absurd h28 hcheck
  · exact absurd h28 hcheck
  · exact hrefused

end Pairs

/-! ### What each function reports or sets -/

section Functions

variable (s : State)

/-- Reading a register after a write to one that is not `r00`. -/
theorem State.readReg_writeReg_of_ne_zero {r : Reg} (hr : r ≠ 0) (v : Word) (q : Reg) :
    (s.writeReg r v).readReg q = if q = r then v else s.readReg q := by
  rw [State.readReg_writeReg]
  exact if_congr ⟨And.left, fun h => ⟨h, h ▸ hr⟩⟩ rfl rfl

/-- Every register after interrupt vector check: `r31` always reports, `r30` and `r29` only in the modes that define them (R164). -/
theorem interruptVectorCheck_readReg (r : Reg) :
    (interruptVectorCheck s).readReg r =
      if r = 31 then ivModeCode s.cfg.ivMode
      else if r = 30 ∧ s.cfg.ivMode ≠ .impossible then s.cfg.ivCount
      else if r = 29 ∧ s.cfg.ivMode = .fixedAddress then s.cfg.ivR29 else s.readReg r := by
  have h31 (t : State) (v : Word) := t.readReg_writeReg_of_ne_zero (r := 31) (by decide) v r
  have h30 (t : State) (v : Word) := t.readReg_writeReg_of_ne_zero (r := 30) (by decide) v r
  have h29 (t : State) (v : Word) := t.readReg_writeReg_of_ne_zero (r := 29) (by decide) v r
  unfold interruptVectorCheck
  cases s.cfg.ivMode
  case impossible => simp [h31]
  case fixedAddress =>
    simp only [State.advance_readReg, h31, h30, h29]
    grind
  case anywhere =>
    simp only [State.advance_readReg, h31, h30]
    grind

@[simp] theorem interruptVectorCheck_readByte (a : Nat) : (interruptVectorCheck s).readByte a = s.readByte a := by
  unfold interruptVectorCheck
  cases s.cfg.ivMode <;> simp

/-- Every register after paging check: `r31` always reports, `r30` only where there is paging (R166). -/
theorem pagingCheck_readReg (r : Reg) :
    (pagingCheck s).readReg r =
      if r = 31 then s.cfg.pageLevels
      else if r = 30 ∧ s.cfg.pageLevels ≠ 0 then s.cfg.pageSize else s.readReg r := by
  have h31 (t : State) (v : Word) := t.readReg_writeReg_of_ne_zero (r := 31) (by decide) v r
  have h30 (t : State) (v : Word) := t.readReg_writeReg_of_ne_zero (r := 30) (by decide) v r
  by_cases hl : s.cfg.pageLevels = 0
  case pos => simp [pagingCheck, hl, h31]
  case neg =>
    simp only [pagingCheck, if_neg hl, State.advance_readReg, h31, h30]
    grind

@[simp] theorem pagingCheck_readByte (a : Nat) : (pagingCheck s).readByte a = s.readByte a := by
  unfold pagingCheck
  dsimp only
  split <;> simp

/-- Interrupt vector enable is one assignment to the vector register, then on to the next instruction (R165). -/
theorem interruptVectorEnable_eq_advance :
    interruptVectorEnable s =
      State.advance { s with ivr := if s.cfg.ivMode = .anywhere then some (s.readReg 31) else s.ivr } := by
  unfold interruptVectorEnable
  cases s.cfg.ivMode <;> rfl

/-- Paging enable is one assignment to the paging state, then on to the next instruction (R167). -/
theorem pagingEnable_eq_advance :
    pagingEnable s =
      State.advance { s with paging := if s.cfg.pageLevels = 0 then s.paging else some (s.readReg 30) } := by
  unfold pagingEnable
  split <;> rfl

theorem informationCheck_writesResult :
    WritesResult s (informationCheck s) 31 (if s.cfg.modelInfo = true then 1 else 0) := finish_writesResult s 31 _

theorem absentGroupCheck_writesResult : WritesResult s (absentGroupCheck s) 31 0 := finish_writesResult s 31 0

end Functions

/-- Settles O52: the check's registers, and the rest from its being register writes before the advance. -/
theorem interruptVectorCheckReports : Obligations.InterruptVectorCheckReports := fun s h29 h28 =>
  ⟨_, processorInterface_vectorCheck h29 h28, (interruptVectorCheck_endsAt s).pc, interruptVectorCheck_readByte s,
    (interruptVectorCheck_endsAt s).sameSystem, interruptVectorCheck_readReg s⟩

/-- Settles O53: the enable is an assignment to the vector register alone. -/
theorem interruptVectorEnableSetsTheRegister : Obligations.InterruptVectorEnableSetsTheRegister := by
  intro s h29 h28
  have hpi := processorInterface_vectorEnable h29 h28
  rw [interruptVectorEnable_eq_advance] at hpi
  exact ⟨_, hpi, rfl, fun _ => rfl, fun _ => rfl, rfl, rfl, rfl, rfl⟩

/-- Settles O54: the check's registers, and the enable as an assignment to the paging state alone. -/
theorem pagingCheckAndEnable : Obligations.PagingCheckAndEnable := by
  intro s h29
  refine ⟨fun h28 => ?check, fun h28 => ?enable⟩
  case check =>
    exact ⟨_, processorInterface_pagingCheck h29 h28, (pagingCheck_endsAt s).pc, pagingCheck_readByte s,
      (pagingCheck_endsAt s).sameSystem, pagingCheck_readReg s⟩
  case enable =>
    have hpi := processorInterface_pagingEnable h29 h28
    rw [pagingEnable_eq_advance] at hpi
    exact ⟨_, hpi, rfl, fun _ => rfl, fun _ => rfl, rfl, rfl, rfl, rfl⟩

/-- Settles O55: two checks that write `r31` alone, and the pairs that are left over. -/
theorem otherProcessorFunctions : Obligations.OtherProcessorFunctions := fun s =>
  ⟨fun h29 h28 => ⟨_, processorInterface_informationCheck h29 h28, informationCheck_writesResult s⟩,
    fun h29 h28 => ⟨_, processorInterface_absentGroup h29 h28, absentGroupCheck_writesResult s⟩,
    processorInterface_undefined⟩

/-! ### What every function keeps -/

/-- What a `pcall -1` that completes keeps of the state, and where it goes on (R171, R172, the spec's decision D25). -/
def InterfaceFrame (s t : State) : Prop :=
  (∀ r, r ≠ 29 → r ≠ 30 → r ≠ 31 → t.readReg r = s.readReg r) ∧ SameMemory s t ∧ t.cfg = s.cfg ∧
    t.nesting = s.nesting ∧ t.pc = s.pc + 8

section Frame

variable {s t : State}

/-- A function that only reports keeps the whole system state. -/
theorem interfaceFrame_of_sameSystem (hregs : ∀ r, r ≠ 29 → r ≠ 30 → r ≠ 31 → t.readReg r = s.readReg r)
    (hmem : SameMemory s t) (hsys : SameSystem s t) (hpc : t.pc = s.pc + 8) : InterfaceFrame s t := by
  obtain ⟨hcfg, _, _, hnesting⟩ := hsys
  exact ⟨hregs, hmem, hcfg, hnesting, hpc⟩

theorem WritesResult.interfaceFrame {v : Word} (h : WritesResult s t 31 v) : InterfaceFrame s t := by
  obtain ⟨hregs, hpc, hmem, hsys⟩ := h
  refine interfaceFrame_of_sameSystem (fun r _ _ h31 => ?kept) hmem hsys hpc
  case kept => rw [hregs, if_neg fun h => h31 h.1]

theorem interruptVectorCheck_interfaceFrame (s : State) : InterfaceFrame s (interruptVectorCheck s) := by
  refine interfaceFrame_of_sameSystem (fun r h29 h30 h31 => ?kept) (interruptVectorCheck_readByte s)
    (interruptVectorCheck_endsAt s).sameSystem (interruptVectorCheck_endsAt s).pc
  case kept => simp [interruptVectorCheck_readReg, h29, h30, h31]

theorem pagingCheck_interfaceFrame (s : State) : InterfaceFrame s (pagingCheck s) := by
  refine interfaceFrame_of_sameSystem (fun r _ h30 h31 => ?kept) (pagingCheck_readByte s)
    (pagingCheck_endsAt s).sameSystem (pagingCheck_endsAt s).pc
  case kept => simp [pagingCheck_readReg, h30, h31]

theorem interruptVectorEnable_interfaceFrame (s : State) : InterfaceFrame s (interruptVectorEnable s) := by
  rw [interruptVectorEnable_eq_advance]
  exact ⟨fun _ _ _ _ => rfl, fun _ => rfl, rfl, rfl, rfl⟩

theorem pagingEnable_interfaceFrame (s : State) : InterfaceFrame s (pagingEnable s) := by
  rw [pagingEnable_eq_advance]
  exact ⟨fun _ _ _ _ => rfl, fun _ => rfl, rfl, rfl, rfl⟩

end Frame

/-- Settles O56: each of the six functions has the frame. -/
theorem processorInterfacePreserves : Obligations.ProcessorInterfacePreserves := by
  intro s t h
  rcases processorInterface_cases s with ⟨_, _, e⟩ | ⟨_, _, e⟩ | ⟨_, _, e⟩ | ⟨_, _, e⟩ | ⟨_, _, e⟩ | ⟨_, e⟩ | e <;>
    rw [e] at h <;> cases h
  · exact interruptVectorCheck_interfaceFrame s
  · exact interruptVectorEnable_interfaceFrame s
  · exact pagingCheck_interfaceFrame s
  · exact pagingEnable_interfaceFrame s
  · exact (informationCheck_writesResult s).interfaceFrame
  · exact (absentGroupCheck_writesResult s).interfaceFrame

/-! ### Program calls and the words that make them -/

section Calls

variable {s t : State} {w : Word}

/-- The number of the processor interface is the one 51-bit pattern that reads as -1 (R161). -/
theorem eq_processorInterface_number_iff (n : InterruptNumber) :
    n = DefaultInterrupt.processorInterface.number ↔ n.toInt = -1 := by
  have hnumber : DefaultInterrupt.processorInterface.number.toInt = -1 := by decide
  rw [← hnumber, BitVec.toInt_inj]

/-- A word whose opcode byte is above the table's is run as an undefined word (30_encoding.md R70). -/
theorem runWord_of_opcode_gt (h : 0x2D < w.toNat % 256) : runWord w s = execUndefined w s := by
  rw [runWord, (exactlyTheTableOpcodesDecode w).2 h]

/-- A word with the owner's opcode is a program call with the number in the owner's field (R175; log 16). -/
theorem pcallNumber_of_opcode {c : Config} {e : PcallEncoding} (he : c.pcallEncoding = some e)
    (hop : e.opcode.toNat = w.toNat % 256) :
    pcallNumber c w = some (BitVec.ofInt 51 (BitVec.ofNat e.numberWidth (w.toNat / 2 ^ e.numberLo)).toInt) := by
  rw [pcallNumber, he]
  simp only [opcodeField_eq_of_mod hop.symm, if_true, BitVec.signExtend, BitVec.extractLsb',
    Nat.shiftRight_eq_div_pow]

theorem execUndefined_of_pcallNumber {n : InterruptNumber} (h : pcallNumber s.cfg w = some n) :
    execUndefined w s = pcall n s := by
  rw [execUndefined, h]

/-- Where the owner gives no opcode, no word is a program call (R175, the spec's decision D10). -/
theorem execUndefined_of_no_pcallEncoding (h : s.cfg.pcallEncoding = none) :
    execUndefined w s = .fault (.trap (.invalidInstruction w) s.cfg.pcallInvalid s.pc) := by
  rw [execUndefined, pcallNumber, h]
  rfl

/-- Without an opcode for `pcall`, a step that completes is that of an instruction. -/
theorem step_eq_next_of_no_pcallEncoding (hc : s.cfg.pcallEncoding = none) (h : step s = .next t) :
    ∃ i, exec i s = .next t := by
  obtain ⟨w, hw⟩ := step_eq_next h
  cases hd : decodeWord w with
  | ok i => exact ⟨i, runWord_of_decodeWord hd ▸ hw⟩
  | error e =>
    rw [runWord, hd] at hw
    exact absurd ((execUndefined_of_no_pcallEncoding hc).symm.trans hw) nofun

end Calls

/-- Settles O15: only program calls change the system state, and without an opcode for them a step is an instruction. -/
theorem withoutPcallSystemStateIsConstant : Obligations.WithoutPcallSystemStateIsConstant := by
  intro s t hc h
  obtain ⟨i, hi⟩ := step_eq_next_of_no_pcallEncoding hc h
  obtain ⟨p, hp, _⟩ := exec_endsAt hi
  obtain ⟨_, hivr, hpaging, _⟩ := hp.sameSystem
  exact ⟨hivr, hpaging⟩

/-- Settles O24: the fetched word is no instruction of the table, and its opcode is the owner's. -/
theorem ownersPcallEncodingIsRun : Obligations.OwnersPcallEncodingIsRun := by
  intro s w e he hpc hread hop hgt
  calc step s = runWord w s := step_of_fetch hpc hread
    _ = execUndefined w s := runWord_of_opcode_gt hgt
    _ = pcall _ s := execUndefined_of_pcallNumber (pcallNumber_of_opcode he hop)

/-- Settles O57: the two branches of `pcall`. -/
theorem programCallsRaiseTheirNumber : Obligations.ProgramCallsRaiseTheirNumber := fun n _ =>
  ⟨fun h => if_pos ((eq_processorInterface_number_iff n).mpr h),
    fun h => if_neg ((eq_processorInterface_number_iff n).not.mpr h)⟩

/-! ### Accesses once paging is enabled -/

section Paged

variable {s : State} {root : Word} (hp : s.paging = some root) (a : Word) (w : Width)

include hp

/-- Paging refuses an access before its alignment and its range are looked at (R167, the spec's decision D28). -/
theorem checkAccess_of_paged : checkAccess s a w = .refused (.pagedAccess a) := by
  rw [checkAccess, hp, Option.isSome_some, if_pos rfl]

theorem memRead_of_paged : memRead s a w = .refused (.pagedAccess a) := by
  rw [memRead, checkAccess_of_paged hp, andThen_refused]

theorem memWrite_of_paged (v : Word) : memWrite s a w v = .refused (.pagedAccess a) := by
  rw [memWrite, checkAccess_of_paged hp, andThen_refused]

end Paged

/-- Settles O58: reads, writes and the fetch make the same check. -/
theorem pagingEnabledRefusesEveryAccess : Obligations.PagingEnabledRefusesEveryAccess := by
  intro s root hp
  refine ⟨fun a w => ⟨memRead_of_paged hp a w, memWrite_of_paged hp a w⟩, fun hpc => ?step⟩
  case step => rw [step, if_neg hpc, fetch, memRead_of_paged hp, andThen_refused]

end Machine

end Sys2Proof
end

section
/-! PROOFS. The exceptions (60_exceptions.md): the fault each kind of instruction can end in, and that a zero divisor and an access
outside memory are the only two. -/

namespace Sys2Proof

namespace Machine

/-! ### The fault of an access outside memory -/

/-- `f` is the `MemoryRange` trap of an access out of range, made by the instruction at the pc of `s` (60_exceptions.md R187,
R188). -/
def IsRangeFault (s : State) (f : Fault) : Prop :=
  ∃ a w, ¬ InRange s a w ∧ f = .trap (.memoryRange a w) s.cfg.pcallMemRange s.pc

section RangeFaults

variable {s : State} {f : Fault}

/-- Memory keeps its size, the trap its number and its pc, when a register is written. -/
theorem isRangeFault_writeReg_iff {q : Reg} {v : Word} : IsRangeFault (s.writeReg q v) f ↔ IsRangeFault s f := by
  simp only [IsRangeFault, InRange, State.writeReg_cfg, State.writeReg_pc]

/-- Memory keeps its size, the trap its number and its pc, when a cell is written. -/
theorem isRangeFault_setCell_iff {b v : Word} {w : Width} : IsRangeFault (s.setCell b w v) f ↔ IsRangeFault s f := Iff.rfl

theorem IsRangeFault.ne_divisionByZero (h : IsRangeFault s f) (n : InterruptNumber) (p : Word) :
    f ≠ .trap .divisionByZero n p := by
  obtain ⟨a, w, -, rfl⟩ := h
  exact nofun

theorem isRangeFault_of_memRead {a : Word} {w : Width} (h : memRead s a w = .fault f) : IsRangeFault s f :=
  ⟨a, w, (memRead_eq_fault h).2⟩

theorem isRangeFault_of_memWrite {a v : Word} {w : Width} (h : memWrite s a w v = .fault f) : IsRangeFault s f :=
  ⟨a, w, (memWrite_eq_fault h).2⟩

/-! ### The fault of each kind of instruction -/

theorem isRangeFault_of_load {w : Width} {rd r1 : Reg} {imm : ImmS} (h : load w rd r1 imm s = .fault f) :
    IsRangeFault s f := by
  rcases andThen_eq_fault h with hread | ⟨_, _, hfinish⟩
  · exact isRangeFault_of_memRead hread
  · cases hfinish

theorem isRangeFault_of_store {w : Width} {rd r1 : Reg} {imm : ImmS} (h : store w rd r1 imm s = .fault f) :
    IsRangeFault s f := by
  rcases andThen_eq_fault h with hwrite | ⟨_, _, hnext⟩
  · exact isRangeFault_of_memWrite hwrite
  · cases hnext

theorem isRangeFault_of_execPush {rd r1 : Reg} {imm : ImmS} (h : execPush rd r1 imm s = .fault f) :
    IsRangeFault s f := by
  rcases andThen_eq_fault h with hwrite | ⟨_, _, hnext⟩
  · exact isRangeFault_of_memWrite hwrite
  · cases hnext

theorem isRangeFault_of_execPull {rd r1 : Reg} (h : execPull rd r1 s = .fault f) : IsRangeFault s f := by
  rcases andThen_eq_fault h with hread | ⟨_, _, hnext⟩
  · exact isRangeFault_of_memRead hread
  · cases hnext

/-- The second write of `call` is made in the state the first one left. -/
theorem isRangeFault_of_execCall {rd r1 r2 : Reg} (h : execCall rd r1 r2 s = .fault f) : IsRangeFault s f := by
  rcases andThen_eq_fault h with hframe | ⟨t, ht, h⟩
  · exact isRangeFault_of_memWrite hframe
  obtain ⟨_, rfl⟩ := memWrite_eq_next ht
  rcases andThen_eq_fault h with hreturn | ⟨_, _, hnext⟩
  · exact isRangeFault_setCell_iff.mp (isRangeFault_of_memWrite hreturn)
  · cases hnext

/-- Both reads of `retn` are made after a register was written: the stack pointer, then the frame pointer. -/
theorem isRangeFault_of_execRetn {r1 r2 : Reg} (h : execRetn r1 r2 s = .fault f) : IsRangeFault s f := by
  rcases andThen_eq_fault h with hframe | ⟨_, _, h⟩
  · exact isRangeFault_writeReg_iff.mp (isRangeFault_of_memRead hframe)
  rcases andThen_eq_fault h with hreturn | ⟨_, _, hnext⟩
  · exact isRangeFault_writeReg_iff.mp (isRangeFault_writeReg_iff.mp (isRangeFault_of_memRead hreturn))
  · cases hnext

theorem divide_eq_fault {q : Word → Word → Word} {rd : Reg} {a b : Word} (h : divide q s rd a b = .fault f) :
    b = 0 ∧ f = .trap .divisionByZero s.cfg.pcallDivZero s.pc := by
  by_cases hb : b = 0
  · rw [divide_of_eq_zero s rd a q hb] at h
    exact ⟨hb, (Host.Outcome.fault.inj h).symm⟩
  · rw [divide_of_ne_zero s rd a q hb] at h
    cases h

theorem finish_ne_fault {rd : Reg} {v : Word} : finish s rd v ≠ .fault f := nofun

theorem branch_ne_fault {taken : Bool} {imm : ImmS} : branch taken imm s ≠ .fault f := nofun

theorem execJleu_ne_fault {rd r1 : Reg} {imm : ImmS} : execJleu rd r1 imm s ≠ .fault f := by
  rw [execJleu]
  split
  · exact branch_ne_fault
  · exact nofun

/-! ### The fault of any instruction -/

/-- Everything an instruction can fault for: only a divide tests its divisor, and only the instructions of 20_memory.md R49
make an access. -/
theorem exec_eq_fault {i : Instr} (h : exec i s = .fault f) :
    (divisor? s i = some 0 ∧ f = .trap .divisionByZero s.cfg.pcallDivZero s.pc) ∨
      (accessesMemory i = true ∧ IsRangeFault s f) := by
  cases i
  case udivr | udivi | sdivr | sdivi =>
    obtain ⟨hzero, hf⟩ := divide_eq_fault h
    exact .inl ⟨congrArg some hzero, hf⟩
  case ldb | ldh | ldw | ldd => exact .inr ⟨rfl, isRangeFault_of_load h⟩
  case stb | sth | stw | std => exact .inr ⟨rfl, isRangeFault_of_store h⟩
  case call => exact .inr ⟨rfl, isRangeFault_of_execCall h⟩
  case push => exact .inr ⟨rfl, isRangeFault_of_execPush h⟩
  case retn => exact .inr ⟨rfl, isRangeFault_of_execRetn h⟩
  case pull => exact .inr ⟨rfl, isRangeFault_of_execPull h⟩
  case jal | jalr => cases h
  case je | jne | jgu => exact absurd h branch_ne_fault
  case jleu => exact absurd h execJleu_ne_fault
  all_goals exact absurd h finish_ne_fault

/-- A zero divisor raises `DivisionByZero` (60_exceptions.md R181); only the four divide instructions have a divisor. -/
theorem exec_of_divisor?_eq_zero {i : Instr} (h : divisor? s i = some 0) : exec i s = divisionTrap s := by
  cases i
  case udivr | udivi | sdivr | sdivi => exact divide_of_eq_zero s _ _ _ (Option.some.inj h)
  all_goals cases h

theorem divisor?_of_exec_eq_divisionByZero {i : Instr} {n : InterruptNumber} {p : Word}
    (h : exec i s = .fault (.trap .divisionByZero n p)) : divisor? s i = some 0 := by
  rcases exec_eq_fault h with ⟨hzero, _⟩ | ⟨_, hrange⟩
  · exact hzero
  · exact absurd rfl (hrange.ne_divisionByZero n p)

end RangeFaults

/-! ### The statements of the family -/

/-- Settles O17: a zero divisor traps by `exec_of_divisor?_eq_zero`, and no other fault of an instruction has that cause. -/
theorem divisionByZeroExactlyOnZeroDivisors : Obligations.DivisionByZeroExactlyOnZeroDivisors := by
  refine ⟨rfl, fun i s => ⟨⟨?divisor, fun hzero => ?trap⟩, exec_of_divisor?_eq_zero⟩⟩
  case divisor =>
    rintro ⟨n, p, htrap⟩
    exact divisor?_of_exec_eq_divisionByZero htrap
  case trap => exact ⟨_, _, exec_of_divisor?_eq_zero hzero⟩

/-- Settles O18: by `exec_eq_fault`, which goes through the kinds of instructions. -/
theorem faultsOfInstructionsAreTheseTwo : Obligations.FaultsOfInstructionsAreTheseTwo := fun _ _ _ h => exec_eq_fault h

end Machine

end Sys2Proof
end

section
/-! PROOFS. Reset and hazards (70_reset_and_hazards.md): the ways a step ends before an instruction is executed, at HALT_PC, at a
fetch outside memory and at an opcode nobody defines. -/

namespace Sys2Proof

namespace Machine

section Stops

variable {s : State} {w : Word}

/-- Nothing is fetched at HALT_PC (70_reset_and_hazards.md R203). -/
theorem step_of_pc_eq_haltPc (hpc : s.pc = s.cfg.haltPc) : step s = .fault (.halted s.pc) := if_pos hpc

/-- A permitted fetch is an access like any other, so outside memory it traps (60_exceptions.md R190). -/
theorem step_of_fetch_outOfRange (hpc : s.pc ≠ s.cfg.haltPc) (hp : Permitted s s.pc .double)
    (hr : ¬ InRange s s.pc .double) : step s = rangeTrap s s.pc .double := by
  rw [step, if_neg hpc, fetch, memRead_of_outOfRange hp hr, andThen_fault, rangeTrap]

/-- A word whose opcode byte is not the owner's is no program call (30_encoding.md R70). -/
theorem pcallNumber_eq_none {c : Config} (h : ∀ e, c.pcallEncoding = some e → e.opcode.toNat ≠ w.toNat % 256) :
    pcallNumber c w = none := by
  cases he : c.pcallEncoding with
  | none => rw [pcallNumber, he]
  | some e =>
    have hop : opcodeField w ≠ e.opcode := fun hw => h e he (hw ▸ opcodeField_toNat w)
    rw [pcallNumber, he]
    exact if_neg hop

theorem execUndefined_of_pcallNumber_eq_none (h : pcallNumber s.cfg w = none) :
    execUndefined w s = .fault (.trap (.invalidInstruction w) s.cfg.pcallInvalid s.pc) := by
  rw [execUndefined, h]
  rfl

end Stops

/-- Settles O22: the test for HALT_PC, the check of the fetch and the decoder stop the step one after the other. -/
theorem stepStopsBeforeExecuting : Obligations.StepStopsBeforeExecuting := by
  refine fun s => ⟨step_of_pc_eq_haltPc, step_of_fetch_outOfRange, fun w hpc hread hgt howner => ?undefined⟩
  case undefined =>
    calc step s = runWord w s := step_of_fetch hpc hread
      _ = execUndefined w s := runWord_of_opcode_gt hgt
      _ = .fault (.trap (.invalidInstruction w) s.cfg.pcallInvalid s.pc) :=
        execUndefined_of_pcallNumber_eq_none (pcallNumber_eq_none howner)

end Machine

end Sys2Proof
end

section
/-! PROOFS. The worked words of the test vectors (95_test_vectors.md section 2.10): a word is told from the canonical word of the
instruction it is to decode to, or from its opcode alone. -/

namespace Sys2Proof

open Machine

section WorkedWords

variable {w : Word} {i : Instr} {op : BitVec 8}

/-- Without the bits it ignores, an instruction's word is the canonical one (30_encoding.md R67, R76). -/
theorem decodeWord_eq_ok_iff_and_usedBits : decodeWord w = .ok i ↔ w &&& usedBits i = encode i := by
  refine ⟨fun h => (encodeOfDecodeIsTheCanonicalWord w i h).symm, fun h => ?canonical⟩
  case canonical =>
    have hi : decodeWord (encode i) = .ok i := decodeOfEncodeIsTheInstruction i
    have hagree : encode i &&& usedBits i = w &&& usedBits i :=
      (encodeOfDecodeIsTheCanonicalWord (encode i) i hi).symm.trans h.symm
    exact ignoredBitsHaveNoEffect (encode i) w i hi hagree

/-- An opcode above the table's is rejected, whatever the bits above it are (30_encoding.md R70). -/
theorem decodeWord_of_opcodeField_gt (hop : opcodeField w = op) (hgt : 0x2D < op.toNat) :
    decodeWord w = .error (.undefinedOpcode op) := by
  have hmod : w.toNat % 256 = op.toNat := hop ▸ (opcodeField_toNat w).symm
  have hbyte : BitVec.ofNat 8 w.toNat = op := BitVec.eq_of_toNat_eq hmod
  exact hbyte ▸ (exactlyTheTableOpcodesDecode w).2 (hmod ▸ hgt)

end WorkedWords

/-- Settles O5: the first ten words without their ignored bits are canonical words; the last two have opcodes outside the table. -/
theorem workedWordsDecode : Obligations.WorkedWordsDecode := by
  refine ⟨?V235, ?V236, ?V237, ?V238, ?V239, ?V240, ?V241, ?V242, ?V243, ?V244, ?V245, ?V246⟩
  case V235 | V236 | V237 | V238 | V239 | V240 | V241 | V242 | V243 | V244 =>
    exact decodeWord_eq_ok_iff_and_usedBits.mpr (by decide)
  case V245 | V246 => exact decodeWord_of_opcodeField_gt (by decide) (by decide)

end Sys2Proof
end
